-- ==== Sys2Proof/Word.lean ====
section
/-! DEFINITION. The word types of the decoder and the two fixed-size tables its registers come in. -/

namespace Sys2Proof

/-- One 8-bit character code of the output string (30_encoding R76). -/
abbrev Byte := BitVec 8

/-- `Num` (00_scope R12): a filter register, coefficient, energy or threshold, as its 64-bit binary64 pattern
(30_encoding R77). -/
abbrev Num64 := BitVec 64

/-- A symbol's 4-bit code, equal to its hexadecimal value (00_scope R13, 30_encoding R76). -/
abbrev Symbol := BitVec 4

/-- The 18-bit command word `CMD` (30_encoding R70). -/
abbrev CommandWord := BitVec 18

/-- A bin number, 0..7: 0..3 are the row bins, 4..7 the column bins (00_scope R18, 20_memory R58). -/
abbrev Bin := Fin 8

/-- The eight bins in order (00_scope R14: `for i in 0..7`). -/
def bins : List Bin := [0, 1, 2, 3, 4, 5, 6, 7]

/-- A register file with one entry per bin: `Q1[0..7]`, `ENERGY[0..7]`, `COEFF[0..7]` (10_state R20). -/
structure Lanes (α : Type) where
  b0 : α
  b1 : α
  b2 : α
  b3 : α
  b4 : α
  b5 : α
  b6 : α
  b7 : α
deriving DecidableEq, Repr

/-- Entry `i` of a register file. -/
def Lanes.get {α : Type} (l : Lanes α) : Bin → α
  | 0 => l.b0
  | 1 => l.b1
  | 2 => l.b2
  | 3 => l.b3
  | 4 => l.b4
  | 5 => l.b5
  | 6 => l.b6
  | 7 => l.b7

/-- The register file whose entry `i` is `f i`: the body of a `for i in 0..7` that writes only entry `i` of a file
(the order is not observable, 40_goertzel_bank R92). -/
def Lanes.ofFn {α : Type} (f : Bin → α) : Lanes α :=
  ⟨f 0, f 1, f 2, f 3, f 4, f 5, f 6, f 7⟩

/-- Every entry the same. -/
def Lanes.fill {α : Type} (a : α) : Lanes α := Lanes.ofFn fun _ => a

/-- Four like things, indexed 0..3: a row of the grid, and the grid as four rows (20_memory R59). -/
structure Quad (α : Type) where
  c0 : α
  c1 : α
  c2 : α
  c3 : α
deriving DecidableEq, Repr

/-- Entry `i` of four. -/
def Quad.get {α : Type} (q : Quad α) : Fin 4 → α
  | 0 => q.c0
  | 1 => q.c1
  | 2 => q.c2
  | 3 => q.c3

/-- The four entries in order. -/
def Quad.toList {α : Type} (q : Quad α) : List α := [q.c0, q.c1, q.c2, q.c3]

end Sys2Proof
end

