-- ==== Sys2Proof/Syntax.lean ====
section
/-! DEFINITION. The three commands of the decoder, and the lines of the script language. -/

namespace Sys2Proof

/-- The decoder's commands, one per row of spec/opcode_table.json (00_scope R2, 30_encoding R71 to R73). -/
inductive Instr where
  /-- `SAMPLE s` (30_encoding R71, R75): `s` is the int16 operand as its 16 bits, two's complement. -/
  | sample (s : BitVec 16)
  /-- `RESET` (30_encoding R72). -/
  | reset
  /-- `END` (30_encoding R73). -/
  | endStream
deriving DecidableEq, Repr

/-- A line of the script language: the three commands in their textual form (30_encoding R78) and the
pseudo-operations (R79). These are conveniences of the script, not operations of the decoder. -/
inductive ScriptLine where
  | reset
  | sample (s : Int)
  | endStream
  /-- `SILENCE n`. -/
  | silence (n : Nat)
  /-- `SAMPLES s0 s1 … sk`. -/
  | samples (s : List Int)
  /-- `TONE f1 f2 n`, frequencies in Hz. -/
  | tone (f1 f2 n : Nat)
  /-- `DIGIT d ms pause`, times in milliseconds. -/
  | digit (d : Symbol) (ms pause : Nat)
  /-- `DECODE s0 … sk`. -/
  | decode (s : List Int)
deriving DecidableEq, Repr

end Sys2Proof
end

