-- ==== Sys2Proof/WellFormed.lean ====
section
/-! DEFINITION. Which commands and script lines are well formed. -/

namespace Sys2Proof

/-- The range of `int16` (00_scope R11) and of a script's sample operand (30_encoding R78). -/
def inInt16 (s : Int) : Bool := decide (-32768 ≤ s ∧ s ≤ 32767)

/-- Every command is well formed: all 65536 values of `SAMPLE`'s data are legal samples (30_encoding R71), which its
operand's type says already, and no other command has an operand (R75). -/
def Instr.wellFormed : Instr → Bool
  | .sample _ => true
  | .reset => true
  | .endStream => true

/-- A script line is well formed when each sample it writes out is an int16 (30_encoding R78). -/
def ScriptLine.wellFormed : ScriptLine → Bool
  | .reset => true
  | .sample s => inInt16 s
  | .endStream => true
  | .silence _ => true
  | .samples l => l.all inInt16
  | .tone _ _ _ => true
  | .digit _ _ _ => true
  | .decode l => l.all inInt16

end Sys2Proof
end

