-- ==== Sys2Proof/Decode.lean ====
section
/-! DEFINITION. Command decode, total on all 18-bit words, and the encoder. -/

namespace Sys2Proof

/-- Why a command word selects no operation (30_encoding R74). -/
inductive DecodeError where
  /-- `op = 0b11`. -/
  | reservedOp
  /-- `op` is `RESET` or `END` and `data` is not zero. -/
  | reservedData
deriving DecidableEq, Repr

/-- `CMD[17:16]`, the operation select (30_encoding R70). -/
def opField (w : CommandWord) : BitVec 2 := w.extractLsb 17 16

/-- `CMD[15:0]`, the data (30_encoding R70). -/
def dataField (w : CommandWord) : BitVec 16 := w.extractLsb 15 0

/-- Command decode (30_encoding R71 to R74). -/
def decode (w : CommandWord) : Except DecodeError Instr :=
  if opField w = 0b00#2 then .ok (.sample (dataField w))
  else if opField w = 0b11#2 then .error .reservedOp
  else if dataField w ≠ 0x0000#16 then .error .reservedData
  else if opField w = 0b01#2 then .ok .reset
  else .ok .endStream

/-- The command word of a command (30_encoding R71 to R73). -/
def encode : Instr → CommandWord
  | .sample s => 0b00#2 ++ s
  | .reset => 0b01#2 ++ 0x0000#16
  | .endStream => 0b10#2 ++ 0x0000#16

/-- The command word whose bits, in the numbering of spec/opcode_table.json, are `w` read as `nbits` bits. The table
gives a row in whole bytes; a command word has 18 bits, so a one above bit 17 makes it no command word (log 15). -/
def tableWord (nbits w : Nat) : Option CommandWord :=
  if w % 2 ^ nbits < 2 ^ 18 then some (BitVec.ofNat 18 (w % 2 ^ nbits)) else none

/-- The command the decoder reads from an instruction whose bits are `w`; `none` where the decoder refuses the word. -/
def decodeTableWord (nbits w : Nat) : Option Instr :=
  match tableWord nbits w with
  | none => none
  | some c =>
    match decode c with
    | .ok i => some i
    | .error _ => none

end Sys2Proof
end

