-- ==== Sys2Proof/Config.lean ====
section
/-! DEFINITION. What a build fixes (the configuration registers) and the free values of the model. -/

namespace Sys2Proof

/-- The configuration of one decoder instance (00_scope R9), as the read-only registers of 10_state R34. No command
changes it. Which configurations are admitted is `Machine.Config.admitted` (00_scope R10). -/
structure Config where
  /-- `CFG_FS`: the sample rate in Hz. -/
  fs : Nat
  /-- `CFG_N`: samples per sample block. -/
  n : Nat
  /-- `CFG_MINC`: the minimum run length. -/
  minc : Nat
  /-- `CFG_COEFF[0..7]`. -/
  coeff : Lanes Num64
  /-- `CFG_FREQ[0..7]`, Hz. No command reads it; `coeff` was derived from it. -/
  freq : Lanes Nat
  /-- `CFG_GRID[0..3][0..3]`, row first (20_memory R50). -/
  grid : Quad (Quad Symbol)
  /-- `CFG_E_FLOOR`. -/
  eFloor : Num64
  /-- `CFG_TW_NORMAL`. -/
  twNormal : Num64
  /-- `CFG_TW_REVERSE`. -/
  twReverse : Num64
  /-- `CFG_PK_LEVEL`. -/
  pkLevel : Num64
  /-- `CFG_PK_HI`. -/
  pkHi : Num64
  /-- `CFG_PK_LO`. -/
  pkLo : Num64
  /-- `CFG_TL_CAP`: `none` is the default, infinity. -/
  tlCap : Option Nat
deriving DecidableEq, Repr

/-- The three arithmetic operations of 00_scope R12 that can give a NaN. -/
inductive FloatOp where
  | add
  | sub
  | mul
deriving DecidableEq, Repr

/-- FREE VALUE (log 2). Sign and fraction of the NaN an operation gives. IEEE 754, to which 00_scope R12 leaves the
arithmetic, does not fix them. `Machine.nanResult` makes a NaN of them. -/
opaque Config.nanPattern : FloatOp → Num64 → Num64 → BitVec 53

/-- FREE VALUE (log 17). Sample `i` of `TONE f1 f2` at sample rate `fs` (30_encoding R79): a sine sum, rounded by a
tie rule the source does not give. Arguments: `fs`, `f1`, `f2`, `i`. -/
opaque Config.toneSample : Nat → Nat → Nat → Nat → BitVec 16

/-- FREE VALUE (log 17). The sample count of a duration that is not a whole number of samples (91_not_in_source
N20). Arguments: `fs` and the milliseconds. -/
opaque Config.partialCount : Nat → Nat → Nat

end Sys2Proof
end

