-- ==== Sys2Proof/Machine/Defaults.lean ====
section
/-! DEFINITION. The constants the spec gives for the configuration registers, and the configuration of the reset state. -/

namespace Sys2Proof.Machine

/-- The eight target frequencies in bin order (00_scope R9, 20_memory R58). -/
def dtmfFreq : Lanes Nat := ⟨697, 770, 852, 941, 1209, 1336, 1477, 1633⟩

/-- The coefficients at `FS = 8000` (40_goertzel_bank R90), as binary64 patterns. -/
def coeff8000 : Lanes Num64 :=
  ⟨0x3ffb52e4e194bd4d#64, 0x3ffa531235287370#64, 0x3ff9195785d5e6e6#64, 0x3ff7a6b9d5563acd#64,
   0x3ff2a02b8a40b5f2#64, 0x3fefe243c7b26539#64, 0x3fe98e4826f6cd9d#64, 0x3fe2316b80c9c988#64⟩

/-- The coefficients at `FS = 16000` (40_goertzel_bank R90). -/
def coeff16000 : Lanes Num64 :=
  ⟨0x3ffecf0c28429af6#64, 0x3ffe8c5637165c95#64, 0x3ffe39bda3b328a7#64, 0x3ffdd7047f08895c#64,
   0x3ffc75ef7f5083b3#64, 0x3ffbb22fd882994a#64, 0x3ffac43a4e34958b#64, 0x3ff9a483457abcb8#64⟩

/-- The default grid (41_classifier R119): the spec's default, which it marks as general knowledge (log 4). -/
def defaultGrid : Quad (Quad Symbol) :=
  ⟨⟨0x1#4, 0x2#4, 0x3#4, 0xA#4⟩,
   ⟨0x4#4, 0x5#4, 0x6#4, 0xB#4⟩,
   ⟨0x7#4, 0x8#4, 0x9#4, 0xC#4⟩,
   ⟨0xE#4, 0x0#4, 0xF#4, 0xD#4⟩⟩

/-- `E_FLOOR = 0x1.86a0000000000p+18`, that is `lit(4.0e5)` (10_state R34). -/
def eFloorValue : Num64 := 0x41186a0000000000#64

/-- `TW_NORMAL = 0x1.978d4fdf3b646p-2`, that is `lit(0.398)` (10_state R34). -/
def twNormalValue : Num64 := 0x3fd978d4fdf3b646#64

/-- `TW_REVERSE = 0x1.4395810624dd3p-3`, that is `lit(0.158)` (10_state R34). -/
def twReverseValue : Num64 := 0x3fc4395810624dd3#64

/-- `PK_LEVEL = 0x1.dcd6500000000p+29`, that is `lit(1.0e9)` (10_state R34). -/
def pkLevelValue : Num64 := 0x41cdcd6500000000#64

/-- `PK_HI = 0x1.4395810624dd3p-3`, that is `lit(0.158)` (10_state R34). -/
def pkHiValue : Num64 := 0x3fc4395810624dd3#64

/-- `PK_LO = 0x1.47ae147ae147bp-7`, that is `lit(0.010)` (10_state R34). -/
def pkLoValue : Num64 := 0x3f847ae147ae147b#64

/-- The configuration with the spec's constants and the five parameters the spec leaves to the build. -/
def buildConfig (fs n minc : Nat) (coeff : Lanes Num64) (tlCap : Option Nat) : Config where
  fs := fs
  n := n
  minc := minc
  coeff := coeff
  freq := dtmfFreq
  grid := defaultGrid
  eFloor := eFloorValue
  twNormal := twNormalValue
  twReverse := twReverseValue
  pkLevel := pkLevelValue
  pkHi := pkHiValue
  pkLo := pkLoValue
  tlCap := tlCap

/-- The configuration of the reset state. DESIGN CHOICE, unsafe (log 4): the spec gives no default for `FS`, `N` and
`MINC`; these are the values of its own test vectors (95_test_vectors, head). -/
def defaultConfig : Config := buildConfig 8000 205 2 coeff8000 none

end Sys2Proof.Machine
end

