-- ==== Sys2Proof/Machine/State.lean ====
section
/-! DEFINITION. The state of one decoder instance (10_state R20), its reset values (R36), the fault and the refusals. -/

namespace Sys2Proof.Machine

/-- `PHASE` (10_state R26): where the session stands. -/
inductive Phase where
  /-- A name for an unconfigured power-on state; reset does not enter it (10_state R26). -/
  | idle
  /-- Samples are being taken. -/
  | run
  /-- `END` has run; only `RESET` is accepted. -/
  | done
deriving DecidableEq, Repr

/-- A DetectionEvent, one entry of the timeline (20_memory R51). -/
structure Entry where
  /-- The symbol code. -/
  sym : Symbol
  /-- The value of `SIDX` at the block boundary that accepted the symbol. -/
  idx : Nat
deriving DecidableEq, Repr

/-- The decoder's only memory, the timeline `TL`: entry `k` is at position `k`, append order (20_memory R50). Log 13. -/
abbrev Memory := List Entry

/-- An output event of a command (30_encoding R80). -/
inductive Event where
  /-- `Energy(e[0..7])`. -/
  | energy (e : Lanes Num64)
  /-- `Detect(sym, idx)`. -/
  | detect (sym : Symbol) (idx : Nat)
  /-- `Decoded(str)`, the characters of `str` as ASCII codes. -/
  | decoded (str : List Byte)
deriving DecidableEq, Repr

/-- What reaches the decoder from outside: a command word (30_encoding R70), or the build's hardware reset
(43_session_control R151). -/
inductive HostInput where
  | command (w : CommandWord)
  | resetPin
deriving DecidableEq, Repr

/-- The state of one decoder instance: the fields of 10_state R20, the read-only configuration registers of R34
(`cfg`, log 3), and two fields of the model's own (`events`, log 7, and `input`, log 5). -/
structure State where
  /-- The configuration registers; no command writes them (00_scope R9). -/
  cfg : Config
  /-- `Q1[0..7]` (10_state R21). -/
  q1 : Lanes Num64
  /-- `Q2[0..7]` (10_state R22). -/
  q2 : Lanes Num64
  /-- `CNT` (10_state R24). -/
  cnt : Nat
  /-- `SIDX` (10_state R25). -/
  sidx : Nat
  /-- `PHASE` (10_state R26). -/
  phase : Phase
  /-- `ENERGY[0..7]` (10_state R27); `none` is the spec's "holds no value" (R28). -/
  energy : Option (Lanes Num64)
  /-- `EVALID` (10_state R28). -/
  evalid : Bool
  /-- `TIMELINE` (10_state R29). -/
  timeline : Memory
  /-- `TRACKED` (10_state R30). -/
  tracked : Option Symbol
  /-- `RUNLEN` (10_state R31). -/
  runlen : Nat
  /-- `GUARD` (10_state R32). -/
  guard : Option Symbol
  /-- `OUT` (10_state R33). -/
  out : List Symbol
  /-- MODEL'S OWN (log 7): the events the last command returned (30_encoding R80). -/
  events : List Event
  /-- MODEL'S OWN (log 5): what will be presented next, first first. -/
  input : List HostInput
deriving DecidableEq, Repr

/-- `TLEN`, the number of timeline entries (10_state R29). -/
def State.tlen (s : State) : Nat := s.timeline.length

/-- The faults (60_exceptions R161). -/
inductive Fault where
  /-- `TimelineFull`: raised by `SAMPLE` through `TlAppend` when an accepted block meets a full timeline, with the
  `SIDX` of the boundary (60_exceptions R166). The fault is the spec's own. Safe: the run stops, and the spec gives
  the rest of the state no value (93 U8, log 9). -/
  | timelineFull (idx : Nat)
deriving DecidableEq, Repr

/-- The refusals (60_exceptions R161, R167): the spec gives the situation no meaning. -/
inductive Refusal where
  /-- Raised by `exec` for an instruction with no meaning in the model. Safe: the run stops. -/
  | notModelled (mnemonic : String)
  /-- `ReservedCommand`: raised by command decode on a reserved word (30_encoding R74). Safe: the run stops. -/
  | reservedCommand
  /-- `OutOfProtocol`: raised by `SAMPLE` and `END` when `PHASE ≠ RUN` (43_session_control R153). Safe: the run stops. -/
  | outOfProtocol
  /-- `BadConfiguration`: raised by construction, and before any command, when the configuration is not admitted
  (00_scope R10). Safe: the run stops. -/
  | badConfiguration
deriving DecidableEq, Repr

/-- What a step and a command answer: the three outcomes of 00_scope R16. -/
abbrev Out := Host.Outcome State Fault Refusal

/-- The state of an instance with configuration `cfg` right after hardware reset (10_state R36, 43_session_control
R151); nothing has been returned and nothing is waiting outside. -/
def State.ofConfig (cfg : Config) : State where
  cfg := cfg
  q1 := Lanes.fill 0x0000000000000000#64
  q2 := Lanes.fill 0x0000000000000000#64
  cnt := 0
  sidx := 0
  phase := .run
  energy := none
  evalid := false
  timeline := []
  tracked := none
  runlen := 1
  guard := none
  out := []
  events := []
  input := []

/-- The machine right after reset. Every register is as 10_state R36 says; the configuration, which reset does not
touch, is the build's (log 4). -/
def State.reset : State := State.ofConfig defaultConfig

end Sys2Proof.Machine
end

