-- ==== Sys2Proof/Machine/Float.lean ====
section
/-! DEFINITION. Binary64 arithmetic, round to nearest, ties to even (00_scope R12). -/

namespace Sys2Proof.Machine

/-- The number a binary64 pattern stands for: not a number, an infinity, or `(-1)^neg · m · 2^e`. -/
inductive Datum where
  | nan
  | inf (neg : Bool)
  | fin (neg : Bool) (m : Nat) (e : Int)
deriving DecidableEq, Repr

/-- Bit 63 of a pattern. -/
def signBit (x : Num64) : Bool := x.msb

/-- Bits 62..52 of a pattern, the biased exponent. -/
def expField (x : Num64) : Nat := (x.extractLsb 62 52).toNat

/-- Bits 51..0 of a pattern, the fraction. -/
def fracField (x : Num64) : Nat := (x.extractLsb 51 0).toNat

/-- Bits 62..0 of a pattern: everything but the sign. -/
def magField (x : Num64) : Nat := (x.extractLsb 62 0).toNat

/-- Positive zero, the `0.0` of 00_scope R12. -/
def zero : Num64 := 0x0000000000000000#64

/-- The pattern with sign `neg` and bits 62..0 equal to `mag`. -/
def ofMag (neg : Bool) (mag : Nat) : Num64 := BitVec.ofBool neg ++ BitVec.ofNat 63 mag

/-- Bits 62..0 of the infinities. -/
def infMag : Nat := 0x7ff0000000000000

/-- What a pattern stands for (IEEE 754 binary64). -/
def unpack (x : Num64) : Datum :=
  if expField x = 2047 then
    if fracField x = 0 then .inf (signBit x) else .nan
  else if expField x = 0 then .fin (signBit x) (fracField x) (-1074)
  else .fin (signBit x) (fracField x + 2 ^ 52) ((expField x : Int) - 1075)

/-- `m / 2^k` to the nearest integer, ties to even. -/
def roundShift (m k : Nat) : Nat :=
  let n := m / 2 ^ k
  let r := m % 2 ^ k
  if 2 * r > 2 ^ k ∨ (2 * r = 2 ^ k ∧ n % 2 = 1) then n + 1 else n

/-- The exponent of the last place of the binary64 number nearest to `m · 2^e`, `m ≠ 0`: 53 significant bits, but
never below `2^-1074`. -/
def ulpExp (m : Nat) (e : Int) : Int := max ((Nat.log2 m : Int) + e - 52) (-1074)

/-- `m · 2^e` in units of `2^q`, to the nearest integer, ties to even. -/
def scaleTo (m : Nat) (e q : Int) : Nat :=
  if q ≤ e then m * 2 ^ (e - q).toNat else roundShift m (q - e).toNat

/-- The binary64 number nearest to `(-1)^neg · m · 2^e`, ties to even; an infinity where it is too large. The
significand is added to the exponent field, so that a rounding up to the next power of two carries into it. -/
def roundPack (neg : Bool) (m : Nat) (e : Int) : Num64 :=
  if m = 0 then ofMag neg 0
  else
    let q := ulpExp m e
    ofMag neg (min ((q + 1074).toNat * 2 ^ 52 + scaleTo m e q) infMag)

/-- A NaN with a free sign and fraction (log 2). -/
def nanResult (f : BitVec 53) : Num64 :=
  BitVec.ofBool f.msb ++ 0x7ff#11 ++ (if f.extractLsb 51 0 = 0#52 then 1#52 else f.extractLsb 51 0)

/-- The same datum with the other sign. -/
def Datum.neg : Datum → Datum
  | .nan => .nan
  | .inf s => .inf (!s)
  | .fin s m e => .fin (!s) m e

/-- A signed magnitude as an integer. -/
def signed (neg : Bool) (m : Nat) : Int := if neg then -(m : Int) else (m : Int)

/-- The sum of two finite data, rounded. The sum of two zeros is `-0` only when both are; an exact zero sum of two
numbers that are not zero is `+0`. -/
def addFin (s1 : Bool) (m1 : Nat) (e1 : Int) (s2 : Bool) (m2 : Nat) (e2 : Int) : Num64 :=
  if m1 = 0 then if m2 = 0 then ofMag (s1 && s2) 0 else roundPack s2 m2 e2
  else if m2 = 0 then roundPack s1 m1 e1
  else
    let e := min e1 e2
    let v := signed s1 (m1 * 2 ^ (e1 - e).toNat) + signed s2 (m2 * 2 ^ (e2 - e).toNat)
    if v = 0 then ofMag false 0 else roundPack (decide (v < 0)) v.natAbs e

/-- The sum of two data; `none` is a NaN. -/
def addDatum : Datum → Datum → Option Num64
  | .nan, _ => none
  | _, .nan => none
  | .inf s, .inf t => if s = t then some (ofMag s infMag) else none
  | .inf s, .fin _ _ _ => some (ofMag s infMag)
  | .fin _ _ _, .inf t => some (ofMag t infMag)
  | .fin s1 m1 e1, .fin s2 m2 e2 => some (addFin s1 m1 e1 s2 m2 e2)

/-- The product of two data; `none` is a NaN. -/
def mulDatum : Datum → Datum → Option Num64
  | .nan, _ => none
  | _, .nan => none
  | .inf s, .inf t => some (ofMag (s != t) infMag)
  | .inf s, .fin t m _ => if m = 0 then none else some (ofMag (s != t) infMag)
  | .fin s m _, .inf t => if m = 0 then none else some (ofMag (s != t) infMag)
  | .fin s1 m1 e1, .fin s2 m2 e2 => some (roundPack (s1 != s2) (m1 * m2) (e1 + e2))

/-- `fadd(a, b)`, the correctly rounded sum (00_scope R12). -/
def fadd (a b : Num64) : Num64 :=
  (addDatum (unpack a) (unpack b)).getD (nanResult (Config.nanPattern .add a b))

/-- `fsub(a, b)`, the correctly rounded difference (00_scope R12). -/
def fsub (a b : Num64) : Num64 :=
  (addDatum (unpack a) (unpack b).neg).getD (nanResult (Config.nanPattern .sub a b))

/-- `fmul(a, b)`, the correctly rounded product (00_scope R12). -/
def fmul (a b : Num64) : Num64 :=
  (mulDatum (unpack a) (unpack b)).getD (nanResult (Config.nanPattern .mul a b))

/-- `lit(d)` for the decimal literal `d = k · 10^x` (00_scope R12): the quotient is taken to 1200 bits below the last
place of any binary64 number, with a low bit that records whether it is exact, and rounded once. -/
def lit (k : Nat) (x : Int) : Num64 :=
  let num := k * 10 ^ x.toNat
  let den := 10 ^ (-x).toNat
  let q := num * 2 ^ 1200 / den
  roundPack false (2 * q + (if num * 2 ^ 1200 % den = 0 then 0 else 1)) (-1201)

/-- The rational number a finite pattern stands for: the value of a `Num64` outside the machine, used by claims. -/
def toRat (x : Num64) : Option Rat :=
  match unpack x with
  | .nan => none
  | .inf _ => none
  | .fin s m e => some ((signed s m : Rat) * (2 : Rat) ^ e)

end Sys2Proof.Machine
end

