-- ==== Sys2Proof/Machine/Flags.lean ====
section
/-! DEFINITION. The tests of the decoder: the IEEE comparisons (00_scope R12). There are no condition codes; the only flag
is `EVALID`, besides the presence bits of `TRACKED` and `GUARD` (10_state R28). -/

namespace Sys2Proof.Machine

/-- The pattern is a NaN. -/
def isNaN (x : Num64) : Bool := decide (expField x = 2047 ∧ fracField x ≠ 0)

/-- The pattern is a finite number: neither an infinity nor a NaN. -/
def isFinite (x : Num64) : Bool := decide (expField x ≠ 2047)

/-- The place of a number in the order of the binary64 numbers; the two zeros share a place. -/
def orderKey (x : Num64) : Int := signed (signBit x) (magField x)

/-- `flt(a, b)`: `a < b`, false when either operand is a NaN (00_scope R12). -/
def flt (a b : Num64) : Bool := !isNaN a && !isNaN b && decide (orderKey a < orderKey b)

/-- `fgt(a, b)`: `a > b`, false when either operand is a NaN (00_scope R12). -/
def fgt (a b : Num64) : Bool := !isNaN a && !isNaN b && decide (orderKey b < orderKey a)

/-- `fge(a, b)`: `a >= b`, false when either operand is a NaN (00_scope R12). -/
def fge (a b : Num64) : Bool := !isNaN a && !isNaN b && decide (orderKey b ≤ orderKey a)

end Sys2Proof.Machine
end

