-- ==== Sys2Proof/Machine/Operands.lean ====
section
/-! DEFINITION. Operand assembly and the data encodings of symbols and entries. -/

namespace Sys2Proof.Machine

/-- The operand of `SAMPLE` as an integer: its 16 bits as two's complement, not scaled or shifted (30_encoding R75). -/
def sampleInt (s : BitVec 16) : Int := s.toInt

/-- `fromInt16(s)`: the binary64 value equal to the integer (00_scope R12). -/
def fromInt16 (s : BitVec 16) : Num64 :=
  roundPack (decide (sampleInt s < 0)) (sampleInt s).natAbs 0

/-- `char(sym)`: the lowercase ASCII hexadecimal digit (00_scope R13, 30_encoding R76). -/
def char (sym : Symbol) : Byte :=
  if sym.toNat ≤ 9 then BitVec.ofNat 8 (0x30 + sym.toNat) else BitVec.ofNat 8 (0x61 + sym.toNat - 10)

/-- A timeline entry as a 68-bit word `idx[63:0] ++ sym[3:0]` (30_encoding R77). -/
def Entry.word (e : Entry) : BitVec 68 := BitVec.ofNat 64 e.idx ++ e.sym

/-- An entry's timestamp in seconds, `idx / FS` (20_memory R51, 41_classifier R118). A view: the decoder never
computes it. -/
def Entry.seconds (cfg : Config) (e : Entry) : Rat := (e.idx : Rat) / (cfg.fs : Rat)

end Sys2Proof.Machine
end

