-- ==== Sys2Proof/Machine/Ops.lean ====
section
/-! DEFINITION. The named operations over the state: configuration check, register writes, timeline access, and the
one fault and the refusals. The decoder has no trap mechanism (60_exceptions R164): an exception is an outcome. -/

namespace Sys2Proof.Machine

/-- The sixteen symbols of a grid, row by row. -/
def gridSymbols (g : Quad (Quad Symbol)) : List Symbol := g.toList.flatMap Quad.toList

/-- `GRID` is a bijection onto the 16 symbols (00_scope R10): sixteen places, no symbol twice. -/
def gridBijective (g : Quad (Quad Symbol)) : Bool := decide (gridSymbols g).Nodup

/-- The six thresholds and the eight frequencies have the only legal value 10_state R34 gives each (log 11). -/
def constantsLegal (c : Config) : Bool :=
  decide (c.freq = dtmfFreq ∧ c.eFloor = eFloorValue ∧ c.twNormal = twNormalValue ∧ c.twReverse = twReverseValue
    ∧ c.pkLevel = pkLevelValue ∧ c.pkHi = pkHiValue ∧ c.pkLo = pkLoValue)

/-- The configuration is admitted (00_scope R10, with the legal values of 10_state R34). -/
def admitted (c : Config) : Bool :=
  decide (0 < c.fs) && decide (1 ≤ c.n) && decide (2 ≤ c.minc) && bins.all (fun i => isFinite (c.coeff.get i))
    && gridBijective c.grid && constantsLegal c

/-- The check of construction: an instance whose configuration is not admitted gives no command a meaning
(00_scope R10, 95_test_vectors X8). -/
def requireAdmitted (s : State) (k : Out) : Out :=
  if admitted s.cfg then k else .refused .badConfiguration

/-- `require PHASE = RUN`, else `refuse OutOfProtocol` (43_session_control R153). -/
def requireRun (s : State) (k : Out) : Out :=
  if s.phase = .run then k else .refused .outOfProtocol

/-- Construction (43_session_control R152): the instance with this configuration after hardware reset. -/
def construct (cfg : Config) : Out :=
  requireAdmitted (State.ofConfig cfg) (.next (State.ofConfig cfg))

/-- Write the filter registers. -/
def State.putBank (s : State) (q1 q2 : Lanes Num64) : State := { s with q1 := q1, q2 := q2 }

/-- Write `CNT`. -/
def State.putCnt (s : State) (n : Nat) : State := { s with cnt := n }

/-- Write `SIDX`. -/
def State.putSidx (s : State) (n : Nat) : State := { s with sidx := n }

/-- Write all eight `ENERGY` registers and set `EVALID` (10_state R27, R28). -/
def State.putEnergy (s : State) (e : Lanes Num64) : State := { s with energy := some e, evalid := true }

/-- Write the timeline. -/
def State.putTimeline (s : State) (m : Memory) : State := { s with timeline := m }

/-- Write `PHASE`, the control transfer of this hardware (00_scope R16). -/
def State.putPhase (s : State) (p : Phase) : State := { s with phase := p }

/-- Return the events of a command (30_encoding R80, log 7). -/
def State.putEvents (s : State) (l : List Event) : State := { s with events := l }

/-- Set what the host presents from here on (log 5). -/
def State.putInput (s : State) (l : List HostInput) : State := { s with input := l }

/-- The collapse registers: `TRACKED`, `RUNLEN`, `GUARD`, `OUT` (10_state R30 to R33). -/
structure Collapse where
  tracked : Option Symbol
  runlen : Nat
  guard : Option Symbol
  out : List Symbol
deriving DecidableEq, Repr

/-- Write the collapse registers. -/
def State.putCollapse (s : State) (c : Collapse) : State :=
  { s with tracked := c.tracked, runlen := c.runlen, guard := c.guard, out := c.out }

/-- `TLEN = TL_CAP` (20_memory R52); an infinite timeline is never full. -/
def timelineFull (cap : Option Nat) (m : Memory) : Bool := decide (some m.length = cap)

/-- `TlAppend(sym, idx)` on the memory (20_memory R52); `none` is the fault. -/
def Memory.append (cap : Option Nat) (m : Memory) (e : Entry) : Option Memory :=
  if timelineFull cap m then none else some (m ++ [e])

/-- `TlRead(k)` (20_memory R53); `none` where there is no entry `k`, a read no rule issues. -/
def Memory.read (m : Memory) (k : Nat) : Option Entry := m[k]?

/-- The timeline's form: within its capacity, sample indices strictly rising (20_memory R52, 10_state R35 item 4). -/
def Memory.wf (cap : Option Nat) (m : Memory) : Bool :=
  (match cap with
    | none => true
    | some c => decide (m.length ≤ c))
    && decide (m.Pairwise fun a b => a.idx < b.idx)

/-- `raise TimelineFull(info)` (60_exceptions R166): the one fault, with the `SIDX` of the boundary. -/
def raiseTimelineFull (idx : Nat) : Out := .fault (.timelineFull idx)

/-- `refuse ReservedCommand` (60_exceptions R167). -/
def refuseReserved : Out := .refused .reservedCommand

end Sys2Proof.Machine
end

