-- ==== Sys2Proof/Machine/Classifier.lean ====
section
/-! DEFINITION. The Classifier (41_classifier R110 to R122). -/

namespace Sys2Proof.Machine

/-- The scan of R111 and R112: the running index moves only on a strict "greater than". -/
def argmaxScan (e : Lanes Num64) (start : Bin) (rest : List Bin) : Bin :=
  rest.foldl (fun best i => if fgt (e.get i) (e.get best) then i else best) start

/-- Step 1a, the row bin, 0..3 (41_classifier R111). -/
def rowBin (e : Lanes Num64) : Bin := argmaxScan e 0 [1, 2, 3]

/-- Step 1b, the column bin, 4..7 (41_classifier R112). -/
def colBin (e : Lanes Num64) : Bin := argmaxScan e 4 [5, 6, 7]

/-- Step 2, the energy floor (41_classifier R113). -/
def floorPass (cfg : Config) (e : Lanes Num64) : Bool :=
  fge (e.get (rowBin e)) cfg.eFloor && fge (e.get (colBin e)) cfg.eFloor

/-- The column is the stronger: normal twist (41_classifier R114). -/
def normalTwist (e : Lanes Num64) : Bool := fgt (e.get (colBin e)) (e.get (rowBin e))

/-- Step 3, the twist test (41_classifier R114). -/
def twistPass (cfg : Config) (e : Lanes Num64) : Bool :=
  if normalTwist e then !flt (e.get (rowBin e)) (fmul (e.get (colBin e)) cfg.twNormal)
  else !flt (e.get (colBin e)) (fmul (e.get (rowBin e)) cfg.twReverse)

/-- `ENERGY[maxIdx]` (41_classifier R114, R115). -/
def peakEnergy (e : Lanes Num64) : Num64 :=
  if normalTwist e then e.get (colBin e) else e.get (rowBin e)

/-- Step 4a, the spurious-peak threshold (41_classifier R115). -/
def peakThreshold (cfg : Config) (e : Lanes Num64) : Num64 :=
  if fgt (peakEnergy e) cfg.pkLevel then fmul (peakEnergy e) cfg.pkHi else fmul (peakEnergy e) cfg.pkLo

/-- Step 4b, the number of bins above the threshold (41_classifier R116). -/
def peakCount (cfg : Config) (e : Lanes Num64) : Nat :=
  (bins.filter fun i => fgt (e.get i) (peakThreshold cfg e)).length

/-- `GRID[r][c]`, row first (20_memory R50, 41_classifier R117). -/
def gridAt (cfg : Config) (r c : Fin 4) : Symbol := (cfg.grid.get r).get c

/-- Step 5, `GRID[row][col − 4]` (41_classifier R117). -/
def gridSymbol (cfg : Config) (row col : Bin) : Symbol :=
  gridAt cfg (Fin.ofNat 4 row.val) (Fin.ofNat 4 (col.val - 4))

/-- The whole function (41_classifier R122). -/
def classify (cfg : Config) (e : Lanes Num64) : Option Symbol :=
  if !floorPass cfg e then none
  else if !twistPass cfg e then none
  else if peakCount cfg e > 2 then none
  else some (gridSymbol cfg (rowBin e) (colBin e))

end Sys2Proof.Machine
end

