-- ==== Sys2Proof/Machine/Goertzel.lean ====
section
/-! DEFINITION. The GoertzelBank and the meaning of `SAMPLE` (40_goertzel_bank). -/

namespace Sys2Proof.Machine

/-- `q0` of one lane: `((c·q1) − q2) + x`, each step rounded (40_goertzel_bank R92). -/
def filterOut (c q1 q2 x : Num64) : Num64 := fadd (fsub (fmul c q1) q2) x

/-- The energy of one lane: `((q1·q1) + (q2·q2)) − ((c·q1)·q2)`, each step rounded (40_goertzel_bank R95). -/
def laneEnergy (c q1 q2 : Num64) : Num64 :=
  fsub (fadd (fmul q1 q1) (fmul q2 q2)) (fmul (fmul c q1) q2)

/-- The eight filter updates with the sample `x` (40_goertzel_bank R92): `Q2[i]` takes the old `Q1[i]`, `Q1[i]` takes
`q0`, which was computed from the old values of both. -/
def filterUpdate (s : State) (x : Num64) : State :=
  s.putBank (Lanes.ofFn fun i => filterOut (s.cfg.coeff.get i) (s.q1.get i) (s.q2.get i) x) s.q1

/-- The two counters (40_goertzel_bank R93). -/
def countSample (s : State) : State := (s.putCnt (s.cnt + 1)).putSidx (s.sidx + 1)

/-- The eight energies of the bank as it stands (40_goertzel_bank R95). -/
def energies (s : State) : Lanes Num64 :=
  Lanes.ofFn fun i => laneEnergy (s.cfg.coeff.get i) (s.q1.get i) (s.q2.get i)

/-- Clearing at a boundary: the filter registers and `CNT`; `SIDX` is not reset (40_goertzel_bank R96). -/
def clearBank (s : State) : State := (s.putBank (Lanes.fill zero) (Lanes.fill zero)).putCnt 0

/-- The block boundary (40_goertzel_bank R94 to R96, 41_classifier R118), `s` being the state after the filter update
and the counting. -/
def boundary (s : State) : Out :=
  let e := energies s
  let s1 := s.putEnergy e
  match classify s.cfg e with
  | none => .next ((clearBank s1).putEvents [.energy e])
  | some sym =>
    match Memory.append s.cfg.tlCap s.timeline ⟨sym, s.sidx⟩ with
    | none => raiseTimelineFull s.sidx
    | some m => .next ((clearBank (s1.putTimeline m)).putEvents [.energy e, .detect sym s.sidx])

/-- The state after the filter update and the counting of `SAMPLE x`, before the boundary test. -/
def takeSample (x : BitVec 16) (s : State) : State := countSample (filterUpdate s (fromInt16 x))

/-- `SAMPLE s` (40_goertzel_bank R91). -/
def execSample (x : BitVec 16) (s : State) : Out :=
  requireAdmitted s (requireRun s (
    let s1 := takeSample x s
    if s1.cnt = s1.cfg.n then boundary s1 else .next (s1.putEvents [])))

end Sys2Proof.Machine
end

