-- ==== Sys2Proof/Machine/Session.lean ====
section
/-! DEFINITION. Session control: the reset of a session, the meaning of `RESET`, and hardware reset (43_session_control). -/

namespace Sys2Proof.Machine

/-- The session reset: every field at its value of 10_state R36, read from nothing but the configuration, which is
left as it is, and with what the host presents next left to the host (43_session_control R150). -/
def sessionReset (s : State) : State := (State.ofConfig s.cfg).putInput s.input

/-- `RESET`, admitted in every phase (43_session_control R150). -/
def execReset (s : State) : Out := requireAdmitted s (.next (sessionReset s))

/-- Hardware reset, exactly the effect of `RESET` (43_session_control R151). -/
def hardwareReset (s : State) : State := sessionReset s

end Sys2Proof.Machine
end

