-- ==== Sys2Proof/Machine/Temporal.lean ====
section
/-! DEFINITION. The TemporalDecoder and the meaning of `END` (42_temporal_decoder). -/

namespace Sys2Proof.Machine

/-- The start of the walk (42_temporal_decoder R131). -/
def collapseStart : Collapse := ⟨none, 1, none, []⟩

/-- One entry of the walk (42_temporal_decoder R132, R133). -/
def collapseStep (minc : Nat) (r : Collapse) (c : Symbol) : Collapse :=
  if r.tracked = some c then
    if r.runlen + 1 ≥ minc ∧ r.guard ≠ some c then
      { r with out := r.out ++ [c], runlen := 0, guard := some c }
    else { r with runlen := r.runlen + 1 }
  else { r with tracked := some c, runlen := 1, guard := none }

/-- The walk over entries `k`, `k+1`, …, `n` of them, by `TlRead` (42_temporal_decoder R130; only the symbols are
used, 20_memory R53). -/
def collapseWalk (minc : Nat) (m : Memory) : Nat → Nat → Collapse → Collapse
  | 0, _, r => r
  | n + 1, k, r =>
    match Memory.read m k with
    | some e => collapseWalk minc m n (k + 1) (collapseStep minc r e.sym)
    | none => r

/-- `collapse(timeline, minConsecutive)`: the walk `for k in 0 .. TLEN−1` (42_temporal_decoder R130). -/
def collapse (minc : Nat) (m : Memory) : Collapse := collapseWalk minc m m.length 0 collapseStart

/-- `END` (42_temporal_decoder R130). -/
def execEndStream (s : State) : Out :=
  requireAdmitted s (requireRun s (
    let r := collapse s.cfg.minc s.timeline
    .next (((s.putCollapse r).putPhase .done).putEvents [.decoded (r.out.map char)])))

end Sys2Proof.Machine
end

