-- ==== Sys2Proof/Machine/Dispatch.lean ====
section
/-! DEFINITION. One arm per command. -/

namespace Sys2Proof.Machine

def exec (i : Instr) (s : State) : Host.Outcome State Fault Refusal :=
  match i with
  | .sample x => Sys2Proof.Machine.execSample x s
  | .reset => Sys2Proof.Machine.execReset s
  | .endStream => Sys2Proof.Machine.execEndStream s

end Sys2Proof.Machine
end

