-- ==== Sys2Proof/Machine/Protocol.lean ====
section
/-! DEFINITION. How a command word is presented and run (30_encoding R70, 60_exceptions R163). -/

namespace Sys2Proof.Machine

/-- Present one command word: decode first, whatever the phase (60_exceptions R163); a reserved word is refused. -/
def present (w : CommandWord) (s : State) : Out :=
  match decode w with
  | .ok i => exec i s
  | .error _ => refuseReserved

/-- Take what comes next from outside and run it to completion (00_scope R6). With nothing presented the decoder
waits and nothing changes (log 6). Construction precedes every command, so its refusal does too. -/
def takeInput (s : State) : Out :=
  requireAdmitted s (
    match s.input with
    | [] => .next s
    | .command w :: rest => present w (s.putInput rest)
    | .resetPin :: rest => .next (hardwareReset (s.putInput rest)))

/-- Place the command word `w` where the next step takes its command from: the head of what is presented (log 5). -/
def placeCommand (w : CommandWord) (s : State) : State := s.putInput (.command w :: s.input.drop 1)

/-- Run a list of commands one after another, as the host issues them (20_memory R60), ending at the first fault or
refusal. For claims about sessions. -/
def execAll : List Instr → State → Out
  | [], s => .next s
  | i :: is, s =>
    match exec i s with
    | .next t => execAll is t
    | .fault f => .fault f
    | .refused r => .refused r

end Sys2Proof.Machine
end

