-- ==== Sys2Proof/Machine/Step.lean ====
section
/-! DEFINITION. One step: one thing taken from outside, run to completion (00_scope R6). -/

namespace Sys2Proof.Machine

/-- One step. -/
def step (s : State) : Host.Outcome State Fault Refusal := Sys2Proof.Machine.takeInput s

/-- `s` with the command word of these bits as the next command presented (log 5, log 15). Bits that are no 18-bit
command word cannot be presented and leave `s` as it is. -/
def State.withFetchWord (s : State) (nbits w : Nat) : State :=
  match tableWord nbits w with
  | some c => placeCommand c s
  | none => s

end Sys2Proof.Machine
end

