-- ==== Sys2Proof/Machine/Script.lean ====
section
/-! DEFINITION. The script language: reading a line, expanding the pseudo-operations, assembling (30_encoding R78, R79). -/

namespace Sys2Proof.Machine

/-- The row and column of a symbol in the grid. -/
def gridFind (cfg : Config) (d : Symbol) : Option (Fin 4 × Fin 4) :=
  ([0, 1, 2, 3] : List (Fin 4)).findSome? fun r =>
    (([0, 1, 2, 3] : List (Fin 4)).find? fun c => gridAt cfg r c == d).map fun c => (r, c)

/-- The frequencies `(fr, fc)` of a grid place: row `r` is bin `r`, grid column `c` is bin `c + 4` (20_memory R58, R59). -/
def gridFreqs (cfg : Config) (p : Fin 4 × Fin 4) : Nat × Nat :=
  (cfg.freq.get (Fin.ofNat 8 p.1.val), cfg.freq.get (Fin.ofNat 8 (p.2.val + 4)))

/-- `SILENCE n`. -/
def expandSilence (n : Nat) : List Instr := List.replicate n (.sample 0#16)

/-- `SAMPLES s0 … sk`. -/
def expandSamples (l : List Int) : List Instr := l.map fun s => .sample (BitVec.ofInt 16 s)

/-- `TONE f1 f2 n`; each sample is a free value (log 17). -/
def expandTone (cfg : Config) (f1 f2 n : Nat) : List Instr :=
  (List.range n).map fun i => .sample (Config.toneSample cfg.fs f1 f2 i)

/-- `FS·ms/1000`; a free value where it is not a whole number (log 17). -/
def sampleCount (cfg : Config) (ms : Nat) : Nat :=
  if cfg.fs * ms % 1000 = 0 then cfg.fs * ms / 1000 else Config.partialCount cfg.fs ms

/-- The expansion of a script line into commands (30_encoding R79); `none` for an ill-formed line. -/
def expand (cfg : Config) (l : ScriptLine) : Option (List Instr) :=
  if !l.wellFormed then none
  else
    match l with
    | .reset => some [.reset]
    | .sample s => some (expandSamples [s])
    | .endStream => some [.endStream]
    | .silence n => some (expandSilence n)
    | .samples l => some (expandSamples l)
    | .tone f1 f2 n => some (expandTone cfg f1 f2 n)
    | .digit d ms pause =>
      (gridFind cfg d).map fun p =>
        expandTone cfg (gridFreqs cfg p).1 (gridFreqs cfg p).2 (sampleCount cfg ms)
          ++ expandSilence (sampleCount cfg pause)
    | .decode l => some (.reset :: (expandSamples l ++ [.endStream]))

/-- The command words of a script, as inputs of the decoder; `none` if a line is ill formed. -/
def assemble (cfg : Config) : List ScriptLine → Option (List HostInput)
  | [] => some []
  | l :: ls =>
    match expand cfg l, assemble cfg ls with
    | some is, some rest => some (is.map (fun i => .command (encode i)) ++ rest)
    | _, _ => none

/-- A decimal digit. -/
def readDigit (c : Char) : Option Nat :=
  if 48 ≤ c.toNat ∧ c.toNat ≤ 57 then some (c.toNat - 48) else none

/-- Decimal digits after the value `acc`. -/
def readDigits : Nat → List Char → Option Nat
  | acc, [] => some acc
  | acc, c :: cs =>
    match readDigit c with
    | some d => readDigits (10 * acc + d) cs
    | none => none

/-- A decimal integer with an optional leading minus (30_encoding R78). -/
def readInt : List Char → Option Int
  | [] => none
  | ['-'] => none
  | '-' :: cs => (readDigits 0 cs).map fun n => -(n : Int)
  | cs => (readDigits 0 cs).map fun n => (n : Int)

/-- The words of a line, separated by spaces; `#` starts a comment that runs to the end of the line. `word` holds the
characters of the word being read, last first. -/
def lineWords (word : List Char) : List Char → List (List Char)
  | [] => if word.isEmpty then [] else [word.reverse]
  | c :: cs =>
    if c = '#' then if word.isEmpty then [] else [word.reverse]
    else if c = ' ' then (if word.isEmpty then lineWords [] cs else word.reverse :: lineWords [] cs)
    else lineWords (c :: word) cs

/-- A line in the textual form of 30_encoding R78: no command for a blank or comment line; the outer `none` for a line
of no known form. -/
def readLine (line : List Char) : Option (List ScriptLine) :=
  match lineWords [] line with
  | [] => some []
  | [w] =>
    if w = ['R', 'E', 'S', 'E', 'T'] then some [.reset]
    else if w = ['E', 'N', 'D'] then some [.endStream]
    else none
  | [w, n] =>
    if w = ['S', 'A', 'M', 'P', 'L', 'E'] then
      match readInt n with
      | some s => if inInt16 s then some [.sample s] else none
      | none => none
    else none
  | _ => none

end Sys2Proof.Machine
end

