-- ==== Sys2Proof/Safety.lean ====
section
/-! DEFINITION. What every state reachable from reset by admitted commands satisfies (10_state R35). -/

namespace Sys2Proof.Safety

open Sys2Proof.Machine

/-- The invariants of 10_state R35 and the bounds of R31 and R33. Those that R35 states "in `RUN`" are stated for
`PHASE = RUN`; `RUNLEN`'s bound is `TLEN`, but 1 when the timeline is empty (log 16). -/
structure Inv (s : State) : Prop where
  /-- R35 item 1. -/
  cnt_lt : s.cnt < s.cfg.n
  /-- R35 item 2. -/
  sidx_mod : s.phase = .run → s.sidx % s.cfg.n = s.cnt
  /-- R35 item 3. -/
  tlen_le : s.tlen ≤ s.sidx / s.cfg.n
  /-- R35 item 4, first half: indices are positive multiples of `N`, none beyond `SIDX`. -/
  idx_block : ∀ e ∈ s.timeline, 0 < e.idx ∧ e.idx % s.cfg.n = 0 ∧ e.idx ≤ s.sidx
  /-- R35 item 4, second half (indices strictly rise), and the capacity (20_memory R50). -/
  timeline_wf : Memory.wf s.cfg.tlCap s.timeline = true
  /-- R35 item 5. -/
  bank_clear : s.phase = .run → s.cnt = 0 → s.q1 = Lanes.fill zero ∧ s.q2 = Lanes.fill zero
  /-- R35 item 6. -/
  evalid_iff : s.evalid = true ↔ s.cfg.n ≤ s.sidx
  /-- `ENERGY` holds a value exactly while `EVALID` is set (10_state R28). -/
  energy_valid : s.energy.isSome = s.evalid
  /-- R35 item 7. -/
  collapse_start : s.phase = .run → s.tracked = none ∧ s.runlen = 1 ∧ s.guard = none ∧ s.out = []
  /-- R35 item 8. -/
  guard_tracked : ∀ c, s.guard = some c → s.tracked = some c
  /-- 10_state R31, with the reset value. -/
  runlen_le : s.runlen ≤ max 1 s.tlen
  /-- 10_state R33. -/
  out_le : s.out.length ≤ s.tlen / s.cfg.minc
  /-- `IDLE` does not occur after reset (10_state R26). -/
  phase_ne_idle : s.phase ≠ .idle

end Sys2Proof.Safety
end

