-- ==== Sys2Proof/Certificates/Slice0/Obligations.lean ====
section
/-! DEFINITION. The statements for the provers. Each docstring names the rule of spec/ it formalises. The events a command
returns (30_encoding R80) are read in `events`, what is presented next in `input`: fields of the model's own (log 7, log 5).
Premises `admitted` are 00_scope R10 with the legal values of 10_state R34 (log 11). -/

open Sys2Proof Sys2Proof.Machine Sys2Proof.Safety

/-! ### Encoding -/

/-- 30_encoding R70 to R73: decoding the word of a command gives it back, for every operand. -/
def Obligations.DecodeEncodeRoundTrip : Prop :=
  ∀ i : Instr, i.wellFormed = true → decode (encode i) = .ok i

/-- 30_encoding R70 to R74: a word the decoder accepts is the word of the command it gives; no command has two words. -/
def Obligations.EncodeDecodeUnique : Prop :=
  ∀ (w : CommandWord) (i : Instr), decode w = .ok i → encode i = w

/-- 30_encoding R74: every word is one of R71 to R73 or reserved, and presenting a reserved word is refused as
`ReservedCommand`. -/
def Obligations.ReservedWordsRefused : Prop :=
  ∀ w : CommandWord,
    (w.toNat < 0x10000 → decode w = .ok (.sample (BitVec.ofNat 16 w.toNat))) ∧
    (w.toNat = 0x10000 → decode w = .ok .reset) ∧
    (w.toNat = 0x20000 → decode w = .ok .endStream) ∧
    ((0x30000 ≤ w.toNat ∨ (0x10000 < w.toNat ∧ w.toNat < 0x20000) ∨ (0x20000 < w.toNat ∧ w.toNat < 0x30000)) →
      (∃ e, decode w = .error e) ∧
      ∀ (s : State) (rest : List HostInput), admitted s.cfg = true → s.input = .command w :: rest →
        step s = .refused .reservedCommand)

/-- 30_encoding R75: the operand of `SAMPLE` is the data read as two's complement; `fromInt16` of it is exact, and that
number is what the filter update, and at a block boundary the energies, are computed from; no other command has an
operand. -/
def Obligations.SampleOperandIsTwosComplement : Prop :=
  ∀ w : CommandWord,
    (w.toNat < 0x10000 →
      ∃ x, decode w = .ok (.sample x) ∧
        sampleInt x = (if w.toNat < 0x8000 then (w.toNat : Int) else (w.toNat : Int) - 65536) ∧
        toRat (fromInt16 x) = some (sampleInt x : Rat) ∧
        ∀ (s t : State) (q1' : Lanes Num64), exec (.sample x) s = .next t →
          (∀ i, q1'.get i = fadd (fsub (fmul (s.cfg.coeff.get i) (s.q1.get i)) (s.q2.get i)) (fromInt16 x)) →
          (s.cnt + 1 ≠ s.cfg.n → t.q1 = q1') ∧
          (s.cnt + 1 = s.cfg.n → ∃ e, t.energy = some e ∧
            ∀ i, e.get i = fsub (fadd (fmul (q1'.get i) (q1'.get i)) (fmul (s.q1.get i) (s.q1.get i)))
              (fmul (fmul (s.cfg.coeff.get i) (q1'.get i)) (s.q1.get i)))) ∧
    (0x10000 ≤ w.toNat → ∀ i, decode w = .ok i → i = .reset ∨ i = .endStream)

/-- 95_test_vectors 4.3, 30_encoding R78: some words written out by the spec. -/
def Obligations.WordsOfTheSpecDecode : Prop :=
  decode 0x003E8#18 = .ok (.sample 1000#16) ∧ decode 0x0F830#18 = .ok (.sample (BitVec.ofInt 16 (-2000))) ∧
  decode 0x08000#18 = .ok (.sample (BitVec.ofInt 16 (-32768))) ∧ decode 0x0FFFF#18 = .ok (.sample (BitVec.ofInt 16 (-1))) ∧
  decode 0x10000#18 = .ok .reset ∧ decode 0x20000#18 = .ok .endStream ∧
  decode 0x10001#18 = .error .reservedData ∧ decode 0x2FFFF#18 = .error .reservedData ∧
  decode 0x3ABCD#18 = .error .reservedOp

/-- 30_encoding R76, 00_scope R13: the output character of each of the sixteen symbols (the ASCII values are the spec's
general knowledge, log 18). -/
def Obligations.SymbolCharacters : Prop :=
  (List.range 16).map (fun k => char (BitVec.ofNat 4 k)) =
    [0x30#8, 0x31#8, 0x32#8, 0x33#8, 0x34#8, 0x35#8, 0x36#8, 0x37#8, 0x38#8, 0x39#8,
      0x61#8, 0x62#8, 0x63#8, 0x64#8, 0x65#8, 0x66#8]

/-- 30_encoding R77: the symbol is in bits 3..0 of an entry word and the low 64 bits of the index in bits 67..4. -/
def Obligations.EntryWordLayout : Prop :=
  ∀ e : Entry, e.word.extractLsb 3 0 = e.sym ∧ (e.word.extractLsb 67 4).toNat = e.idx % 2 ^ 64

/-- 30_encoding R79: `DECODE s0 … sk` expands to `RESET`, the samples, `END`. -/
def Obligations.DecodeScriptExpansion : Prop :=
  ∀ (cfg : Config) (l : List Int), (∀ v ∈ l, -32768 ≤ v ∧ v ≤ 32767) →
    ∃ xs : List (BitVec 16), expand cfg (.decode l) = some (.reset :: (xs.map Instr.sample ++ [.endStream])) ∧
      xs.map sampleInt = l

/-! ### The step -/

/-- 00_scope R6, 30_encoding R70: a step at a presented command word is the decoded command run on the state that has
taken the word. -/
def Obligations.StepRunsDecodedCommand : Prop :=
  ∀ (s : State) (w : CommandWord) (rest : List HostInput) (i : Instr),
    admitted s.cfg = true → s.input = .command w :: rest → decode w = .ok i →
    step s = exec i (s.putInput rest)

/-- The word placed by `withFetchWord` is the command the next step runs (the model's choice, log 5 and log 15). -/
def Obligations.PlacedWordRunsNext : Prop :=
  ∀ (s : State) (w : Nat) (i : Instr), admitted s.cfg = true → w < 2 ^ 24 → decodeTableWord 24 w = some i →
    step (s.withFetchWord 24 w) = exec i (s.putInput (s.input.drop 1))

/-- With nothing presented a step changes nothing (the model's choice, log 6). -/
def Obligations.IdleStepChangesNothing : Prop :=
  ∀ s : State, admitted s.cfg = true → s.input = [] → step s = .next s

/-- 43_session_control R151 (a hardware reset reaches the model as an input, log 14): hardware reset has exactly the
effect of `RESET`, leaves the configuration, and leaves a decoder that takes `SAMPLE` at once and for which a `RESET`
is harmless. -/
def Obligations.HardwareResetActsAsReset : Prop :=
  ∀ (s : State) (rest : List HostInput), admitted s.cfg = true → s.input = .resetPin :: rest →
    step s = exec .reset (s.putInput rest) ∧
    ∃ t, step s = .next t ∧ t.cfg = s.cfg ∧ t.phase = .run ∧ (∀ x r, exec (.sample x) t ≠ .refused r) ∧
      exec .reset t = .next t

/-- 00_scope R10 with the legal values of 10_state R34 (log 11): which configurations are refused. -/
def Obligations.UnadmittedConfigurationRefused : Prop :=
  ∀ s : State,
    let ok := 0 < s.cfg.fs ∧ 1 ≤ s.cfg.n ∧ 2 ≤ s.cfg.minc ∧ (∀ i, toRat (s.cfg.coeff.get i) ≠ none) ∧
      (∀ sym, ∃! p : Fin 4 × Fin 4, gridAt s.cfg p.1 p.2 = sym) ∧ constantsLegal s.cfg = true
    (¬ ok → step s = .refused .badConfiguration ∧ ∀ i, exec i s = .refused .badConfiguration) ∧
    (ok → step s ≠ .refused .badConfiguration ∧ ∀ i, exec i s ≠ .refused .badConfiguration)

/-- 60_exceptions R161, R163: the complete list of the outcomes of a step that are not a next state, in the order of
the checks; that a bad configuration is refused at every step is the model's choice (log 10). -/
def Obligations.NonOkOutcomesComplete : Prop :=
  (∀ (s : State) (f : Fault), step s = .fault f →
    f = .timelineFull (s.sidx + 1) ∧ some s.tlen = s.cfg.tlCap ∧ s.phase = .run ∧
      ∃ w x rest, s.input = .command w :: rest ∧ decode w = .ok (.sample x)) ∧
  (∀ (s : State) (r : Refusal), step s = .refused r →
    (admitted s.cfg = false ∧ r = .badConfiguration) ∨
    (admitted s.cfg = true ∧ ∃ w rest, s.input = .command w :: rest ∧
      (((∃ e, decode w = .error e) ∧ r = .reservedCommand) ∨
       ((∃ i, decode w = .ok i ∧ i ≠ .reset) ∧ s.phase ≠ .run ∧ r = .outOfProtocol))))

/-! ### SAMPLE -/

/-- 40_goertzel_bank R91 to R93: a `SAMPLE` that does not complete a sample block. -/
def Obligations.SampleInsideBlock : Prop :=
  ∀ (s : State) (x : BitVec 16), admitted s.cfg = true → s.phase = .run → s.cnt + 1 ≠ s.cfg.n →
    ∃ t, exec (.sample x) s = .next t ∧
      (∀ i, t.q1.get i =
        fadd (fsub (fmul (s.cfg.coeff.get i) (s.q1.get i)) (s.q2.get i)) (fromInt16 x)) ∧
      t.q2 = s.q1 ∧ t.cnt = s.cnt + 1 ∧ t.sidx = s.sidx + 1 ∧ t.events = [] ∧
      t.cfg = s.cfg ∧ t.phase = .run ∧ t.energy = s.energy ∧ t.evalid = s.evalid ∧ t.timeline = s.timeline ∧
      t.tracked = s.tracked ∧ t.runlen = s.runlen ∧ t.guard = s.guard ∧ t.out = s.out ∧ t.input = s.input

/-- 40_goertzel_bank R94 to R96, 41_classifier R118: a `SAMPLE` that completes a sample block the Classifier rejects. -/
def Obligations.SampleRejectedBoundary : Prop :=
  ∀ (s : State) (x : BitVec 16) (q1' e : Lanes Num64), admitted s.cfg = true → s.phase = .run →
    s.cnt + 1 = s.cfg.n →
    (∀ i, q1'.get i = fadd (fsub (fmul (s.cfg.coeff.get i) (s.q1.get i)) (s.q2.get i)) (fromInt16 x)) →
    (∀ i, e.get i = fsub (fadd (fmul (q1'.get i) (q1'.get i)) (fmul (s.q1.get i) (s.q1.get i)))
      (fmul (fmul (s.cfg.coeff.get i) (q1'.get i)) (s.q1.get i))) →
    classify s.cfg e = none →
    ∃ t, exec (.sample x) s = .next t ∧
      t.q1 = Lanes.fill 0#64 ∧ t.q2 = Lanes.fill 0#64 ∧ t.cnt = 0 ∧ t.sidx = s.sidx + 1 ∧
      t.energy = some e ∧ t.evalid = true ∧ t.events = [.energy e] ∧ t.timeline = s.timeline ∧
      t.cfg = s.cfg ∧ t.phase = .run ∧ t.tracked = s.tracked ∧ t.runlen = s.runlen ∧ t.guard = s.guard ∧
      t.out = s.out ∧ t.input = s.input

/-- 40_goertzel_bank R94 to R96, 41_classifier R118, 20_memory R52: a `SAMPLE` that completes a sample block the
Classifier accepts, with room in the timeline. -/
def Obligations.SampleAcceptedBoundary : Prop :=
  ∀ (s : State) (x : BitVec 16) (q1' e : Lanes Num64) (sym : Symbol), admitted s.cfg = true → s.phase = .run →
    s.cnt + 1 = s.cfg.n →
    (∀ i, q1'.get i = fadd (fsub (fmul (s.cfg.coeff.get i) (s.q1.get i)) (s.q2.get i)) (fromInt16 x)) →
    (∀ i, e.get i = fsub (fadd (fmul (q1'.get i) (q1'.get i)) (fmul (s.q1.get i) (s.q1.get i)))
      (fmul (fmul (s.cfg.coeff.get i) (q1'.get i)) (s.q1.get i))) →
    classify s.cfg e = some sym → s.cfg.tlCap ≠ some s.tlen →
    ∃ t, exec (.sample x) s = .next t ∧
      t.q1 = Lanes.fill 0#64 ∧ t.q2 = Lanes.fill 0#64 ∧ t.cnt = 0 ∧ t.sidx = s.sidx + 1 ∧
      t.energy = some e ∧ t.evalid = true ∧ t.events = [.energy e, .detect sym (s.sidx + 1)] ∧
      t.timeline = s.timeline ++ [⟨sym, s.sidx + 1⟩] ∧
      t.cfg = s.cfg ∧ t.phase = .run ∧ t.tracked = s.tracked ∧ t.runlen = s.runlen ∧ t.guard = s.guard ∧
      t.out = s.out ∧ t.input = s.input

/-- 60_exceptions R161, R166: an accepted sample block at a full timeline is the fault `TimelineFull`, with the `SIDX`
of the boundary. -/
def Obligations.TimelineFullFaults : Prop :=
  ∀ (s : State) (x : BitVec 16) (q1' e : Lanes Num64) (sym : Symbol), admitted s.cfg = true → s.phase = .run →
    s.cnt + 1 = s.cfg.n →
    (∀ i, q1'.get i = fadd (fsub (fmul (s.cfg.coeff.get i) (s.q1.get i)) (s.q2.get i)) (fromInt16 x)) →
    (∀ i, e.get i = fsub (fadd (fmul (q1'.get i) (q1'.get i)) (fmul (s.q1.get i) (s.q1.get i)))
      (fmul (fmul (s.cfg.coeff.get i) (q1'.get i)) (s.q1.get i))) →
    classify s.cfg e = some sym → s.cfg.tlCap = some s.tlen →
    exec (.sample x) s = .fault (.timelineFull (s.sidx + 1))

/-- 20_memory R52, 60_exceptions R160: with the default infinite timeline every `SAMPLE` in `RUN` completes. -/
def Obligations.SampleCompletes : Prop :=
  ∀ (s : State) (x : BitVec 16), admitted s.cfg = true → s.phase = .run → s.cfg.tlCap = none →
    ∃ t, exec (.sample x) s = .next t ∧ t.phase = .run ∧ t.sidx = s.sidx + 1

/-- The frame of `SAMPLE` (10_state R20, "written by"; 20_memory R52): what it leaves unchanged, in every case. The
timeline is read by entry number. -/
def Obligations.SampleFrame : Prop :=
  ∀ (s t : State) (x : BitVec 16), exec (.sample x) s = .next t →
    t.cfg = s.cfg ∧ t.phase = s.phase ∧ t.tracked = s.tracked ∧ t.runlen = s.runlen ∧ t.guard = s.guard ∧
    t.out = s.out ∧ t.input = s.input ∧
    (∀ k, k < s.tlen → Memory.read t.timeline k = Memory.read s.timeline k) ∧ t.tlen ≤ s.tlen + 1 ∧
    (s.cnt + 1 ≠ s.cfg.n → t.timeline = s.timeline ∧ t.energy = s.energy ∧ t.evalid = s.evalid)

/-- 10_state R22, 40_goertzel_bank R97: a lane's next registers depend on that lane and on no other. -/
def Obligations.LanesAreIndependent : Prop :=
  ∀ (s s' t t' : State) (x : BitVec 16) (i : Bin),
    s.cfg.coeff.get i = s'.cfg.coeff.get i → s.q1.get i = s'.q1.get i → s.q2.get i = s'.q2.get i →
    s.cnt = s'.cnt → s.cfg.n = s'.cfg.n →
    exec (.sample x) s = .next t → exec (.sample x) s' = .next t' →
    t.q1.get i = t'.q1.get i ∧ t.q2.get i = t'.q2.get i ∧
      (s.cnt + 1 = s.cfg.n → t.energy.map (fun e => e.get i) = t'.energy.map (fun e => e.get i))

/-- 40_goertzel_bank R92: the first sample of a sample block gives `Q1[i] = x` exactly, for every coefficient. -/
def Obligations.FirstSampleOfBlock : Prop :=
  ∀ (s : State) (x : BitVec 16), admitted s.cfg = true → s.phase = .run → s.cnt + 1 ≠ s.cfg.n →
    s.q1 = Lanes.fill 0#64 → s.q2 = Lanes.fill 0#64 →
    ∃ t, exec (.sample x) s = .next t ∧ t.q1 = Lanes.fill (fromInt16 x) ∧ t.q2 = Lanes.fill 0#64

/-- 40_goertzel_bank R94, the spec's own inference: with `N = 1` every `SAMPLE` is a boundary and every energy is
`fmul(x, x)`, for coefficients in the range R90 gives them (an admitted coefficient far outside it makes `c·x`
overflow, and the energy a NaN, log 19). -/
def Obligations.OneSampleBlockEnergy : Prop :=
  ∀ (s : State) (x : BitVec 16), admitted s.cfg = true → s.phase = .run → s.cfg.n = 1 → s.cnt = 0 →
    s.cfg.tlCap = none → (∀ i, ∃ y, toRat (s.cfg.coeff.get i) = some y ∧ |y| ≤ 2) →
    s.q1 = Lanes.fill 0#64 → s.q2 = Lanes.fill 0#64 →
    ∃ t, exec (.sample x) s = .next t ∧
      t.energy = some (Lanes.fill (fmul (fromInt16 x) (fromInt16 x))) ∧ t.cnt = 0

/-- 40_goertzel_bank R99, with the spec's inference from R92, R95 and R113: `N` commands `SAMPLE 0` from a boundary
keep the registers at `0.0` and end in a rejected sample block of energies `0.0`. -/
def Obligations.SilentBlockRejected : Prop :=
  ∀ s : State, admitted s.cfg = true → s.phase = .run → s.cnt = 0 →
    s.q1 = Lanes.fill 0#64 → s.q2 = Lanes.fill 0#64 →
    (∀ k, k ≤ s.cfg.n → ∃ t, execAll (List.replicate k (.sample 0#16)) s = .next t ∧
      t.q1 = Lanes.fill 0#64 ∧ t.q2 = Lanes.fill 0#64 ∧ t.timeline = s.timeline ∧ t.sidx = s.sidx + k) ∧
    (∃ t, execAll (List.replicate s.cfg.n (.sample 0#16)) s = .next t ∧ t.cnt = 0 ∧
      t.energy = some (Lanes.fill 0#64) ∧ t.events = [.energy (Lanes.fill 0#64)]) ∧
    fge 0#64 (lit 4 5) = false

/-! ### The Classifier -/

/-- 41_classifier R111, R112: the row and column bins are the first places of the greatest energy of their group (for
energies that are numbers; NaNs are in `ClassifierOnNaNAndInfinity`). -/
def Obligations.ArgmaxTakesLowestIndex : Prop :=
  ∀ e : Lanes Num64, (∀ i, isNaN (e.get i) = false) →
    ((rowBin e).val < 4 ∧ (∀ i : Bin, i.val < 4 → fgt (e.get i) (e.get (rowBin e)) = false) ∧
      (∀ i : Bin, i < rowBin e → fgt (e.get (rowBin e)) (e.get i) = true)) ∧
    (4 ≤ (colBin e).val ∧ (∀ i : Bin, 4 ≤ i.val → fgt (e.get i) (e.get (colBin e)) = false) ∧
      (∀ i : Bin, 4 ≤ i.val → i < colBin e → fgt (e.get (colBin e)) (e.get i) = true))

/-- 41_classifier R113: the absolute energy floor, `4.0e5`, inclusive, whatever `N`. -/
def Obligations.EnergyFloorRejects : Prop :=
  (∀ (c : Config) (e : Lanes Num64), admitted c = true →
    ¬ (fge (e.get (rowBin e)) (lit 4 5) = true ∧ fge (e.get (colBin e)) (lit 4 5) = true) → classify c e = none) ∧
  (∀ (c : Config) (e : Lanes Num64) (n : Nat), classify { c with n := n } e = classify c e) ∧
  fge (lit 400000 0) (lit 4 5) = true ∧ fge (lit 3999999 (-1)) (lit 4 5) = false

/-- 41_classifier R114: the two twist tests, strict, with the constants `0.398` and `0.158`. -/
def Obligations.TwistRejects : Prop :=
  ∀ (c : Config) (e : Lanes Num64), admitted c = true →
    (fgt (e.get (colBin e)) (e.get (rowBin e)) = true →
      flt (e.get (rowBin e)) (fmul (e.get (colBin e)) (lit 398 (-3))) = true → classify c e = none) ∧
    (fgt (e.get (colBin e)) (e.get (rowBin e)) = false →
      flt (e.get (colBin e)) (fmul (e.get (rowBin e)) (lit 158 (-3))) = true → classify c e = none)

/-- 41_classifier R122: exactly when the Classifier accepts, and the symbol it gives, in the source's constants. -/
def Obligations.ClassifierAcceptsExactly : Prop :=
  ∀ (c : Config) (e : Lanes Num64) (sym : Symbol), admitted c = true →
    let row := e.get (rowBin e)
    let col := e.get (colBin e)
    let emax := if fgt col row = true then col else row
    let t := if fgt emax (lit 1 9) = true then fmul emax (lit 158 (-3)) else fmul emax (lit 10 (-3))
    (classify c e = some sym ↔
      fge row (lit 4 5) = true ∧ fge col (lit 4 5) = true ∧
      (fgt col row = true → flt row (fmul col (lit 398 (-3))) = false) ∧
      (fgt col row = false → flt col (fmul row (lit 158 (-3))) = false) ∧
      (bins.filter fun i => fgt (e.get i) t).length ≤ 2 ∧
      ∃ r k : Fin 4, r.val = (rowBin e).val ∧ k.val + 4 = (colBin e).val ∧ sym = gridAt c r k)

/-- 41_classifier R121, the spec's own choice: a NaN in the row or the column bin rejects, a NaN elsewhere is not
counted, and `+∞` in both the row and the column bin accepts. -/
def Obligations.ClassifierOnNaNAndInfinity : Prop :=
  ∀ (c : Config) (e : Lanes Num64), admitted c = true →
    ((isNaN (e.get (rowBin e)) = true ∨ isNaN (e.get (colBin e)) = true) → classify c e = none) ∧
    (∀ (i : Bin) (t : Num64), isNaN (e.get i) = true → fgt (e.get i) t = false) ∧
    (e.get (rowBin e) = 0x7ff0000000000000#64 → e.get (colBin e) = 0x7ff0000000000000#64 →
      ∃ r k : Fin 4, r.val = (rowBin e).val ∧ k.val + 4 = (colBin e).val ∧ classify c e = some (gridAt c r k))

/-! ### END and the collapse -/

/-- 42_temporal_decoder R130, R134, R136: `END` in `RUN` completes, returns `OUT` as characters, and leaves the filter
registers, the counters, `ENERGY`, `EVALID`, the timeline and the configuration unchanged. -/
def Obligations.EndResultAndFrame : Prop :=
  ∀ s : State, admitted s.cfg = true → s.phase = .run →
    ∃ t, exec .endStream s = .next t ∧ t.phase = .done ∧
      (⟨t.tracked, t.runlen, t.guard, t.out⟩ : Collapse) =
        (s.timeline.map Entry.sym).foldl (collapseStep s.cfg.minc) ⟨none, 1, none, []⟩ ∧
      t.events = [.decoded (t.out.map char)] ∧
      t.cfg = s.cfg ∧ t.q1 = s.q1 ∧ t.q2 = s.q2 ∧ t.cnt = s.cnt ∧ t.sidx = s.sidx ∧ t.energy = s.energy ∧
      t.evalid = s.evalid ∧ t.timeline = s.timeline ∧ t.input = s.input ∧
      (∀ k, Memory.read t.timeline k = Memory.read s.timeline k)

/-- 42_temporal_decoder R132, R133: one entry of the walk. -/
def Obligations.CollapseStepRules : Prop :=
  ∀ (minc : Nat) (r : Collapse) (c : Symbol),
    (r.tracked ≠ some c → collapseStep minc r c = ⟨some c, 1, none, r.out⟩) ∧
    (r.tracked = some c → r.runlen + 1 ≥ minc → r.guard ≠ some c →
      collapseStep minc r c = ⟨some c, 0, some c, r.out ++ [c]⟩) ∧
    (r.tracked = some c → ¬ (r.runlen + 1 ≥ minc ∧ r.guard ≠ some c) →
      collapseStep minc r c = ⟨some c, r.runlen + 1, r.guard, r.out⟩)

/-- 42_temporal_decoder R135 item 1, the spec's own inference: each maximal run of at least `MINC` equal symbols gives
its symbol once, and every shorter run nothing, in order. -/
def Obligations.CollapseKeepsLongRuns : Prop :=
  ∀ (minc : Nat) (m : Memory), 2 ≤ minc →
    (collapse minc m).out =
      ((m.map Entry.sym).splitBy (fun a b => a == b)).filterMap
        (fun run => if minc ≤ run.length then run.head? else none)

/-- 42_temporal_decoder R135 item 2, 10_state R33, the spec's own inferences: `|OUT|` is at most `TLEN div MINC`. -/
def Obligations.DecodedLengthBound : Prop :=
  ∀ (minc : Nat) (m : Memory), 2 ≤ minc → (collapse minc m).out.length ≤ m.length / minc

/-- 42_temporal_decoder R135 item 4, the spec's own inference: running the body of the walk at each append gives the
same collapse. -/
def Obligations.CollapseOnTheFly : Prop :=
  ∀ (minc : Nat) (m : Memory) (e : Entry), collapse minc (m ++ [e]) = collapseStep minc (collapse minc m) e.sym

/-- 42_temporal_decoder R135 item 5, the spec's own inference: a prefix of the timeline decodes to a prefix. -/
def Obligations.PrefixDecodesToPrefix : Prop :=
  ∀ (minc : Nat) (m m' : Memory), (collapse minc m).out <+: (collapse minc (m ++ m')).out

/-- 42_temporal_decoder R131, 20_memory R53: only the symbols are read; the timestamps play no part. -/
def Obligations.TimestampsAreIgnored : Prop :=
  ∀ (minc : Nat) (m m' : Memory), m.map Entry.sym = m'.map Entry.sym → collapse minc m = collapse minc m'

/-- 42_temporal_decoder R134, 60_exceptions R165: `END` returns one string, of the characters `0-9a-f` only (their
ASCII values are the spec's general knowledge, log 18). -/
def Obligations.DecodedIsLowercaseHex : Prop :=
  ∀ s t : State, exec .endStream s = .next t →
    ∃ str : List Byte, t.events = [.decoded str] ∧ str.length = t.out.length ∧
      ∀ b ∈ str, (0x30 ≤ b.toNat ∧ b.toNat ≤ 0x39) ∨ (0x61 ≤ b.toNat ∧ b.toNat ≤ 0x66)

/-! ### Sessions -/

/-- 43_session_control R153: the protocol table, every phase against every kind of command. -/
def Obligations.ProtocolTable : Prop :=
  ∀ s : State, admitted s.cfg = true →
    (s.phase ≠ .run →
      (∀ x, exec (.sample x) s = .refused .outOfProtocol) ∧ exec .endStream s = .refused .outOfProtocol) ∧
    (s.phase = .run →
      (∀ x, (∃ t, exec (.sample x) s = .next t ∧ t.phase = .run) ∨
        (∃ k, exec (.sample x) s = .fault (.timelineFull k) ∧ s.cfg.tlCap ≠ none)) ∧
      ∃ t, exec .endStream s = .next t ∧ t.phase = .done) ∧
    (∃ t, exec .reset s = .next t ∧ t.phase = .run) ∧
    (∀ w e, decode w = .error e → present w s = .refused .reservedCommand)

/-- 43_session_control R153, 30_encoding R79: a whole `decode(sampleSequence)` is never refused, whatever came before,
and ends with every sample counted. -/
def Obligations.DecodeSessionCompletes : Prop :=
  ∀ (s : State) (xs : List (BitVec 16)), admitted s.cfg = true → s.cfg.tlCap = none →
    ∃ t, execAll (.reset :: (xs.map Instr.sample ++ [.endStream])) s = .next t ∧ t.phase = .done ∧
      t.sidx = xs.length ∧ t.cnt = xs.length % s.cfg.n ∧ t.tlen ≤ xs.length / s.cfg.n ∧
      t.events = [.decoded (t.out.map char)]

/-- 43_session_control R150, R154: what follows a `RESET` does not depend on anything before it but the configuration.
-/
def Obligations.SessionsAreIndependent : Prop :=
  ∀ (s s' : State) (is : List Instr), s.cfg = s'.cfg → s.input = s'.input →
    execAll (.reset :: is) s = execAll (.reset :: is) s'

/-- 10_state R36, 43_session_control R150: the values that `RESET` and hardware reset leave, from any state; the
configuration is unchanged. -/
def Obligations.ResetLeaves : Prop :=
  ∀ s : State, admitted s.cfg = true →
    ∃ t, exec .reset s = .next t ∧ hardwareReset s = t ∧
      t.q1 = Lanes.fill 0#64 ∧ t.q2 = Lanes.fill 0#64 ∧ t.cnt = 0 ∧ t.sidx = 0 ∧ t.phase = .run ∧
      t.energy = none ∧ t.evalid = false ∧ t.timeline = [] ∧ t.tlen = 0 ∧ t.tracked = none ∧ t.runlen = 1 ∧
      t.guard = none ∧ t.out = [] ∧ t.cfg = s.cfg

/-- 10_state R36: the reset state of the machine, in the fields the spec gives a value. -/
def Obligations.ResetStateValues : Prop :=
  State.reset.q1 = Lanes.fill 0#64 ∧ State.reset.q2 = Lanes.fill 0#64 ∧ State.reset.cnt = 0 ∧
  State.reset.sidx = 0 ∧ State.reset.phase = .run ∧ State.reset.energy = none ∧ State.reset.evalid = false ∧
  State.reset.timeline = [] ∧ State.reset.tracked = none ∧ State.reset.runlen = 1 ∧ State.reset.guard = none ∧
  State.reset.out = []

/-- 30_encoding R80: the events each command returns, in order. -/
def Obligations.EventsOfEachCommand : Prop :=
  (∀ (s t : State) (x : BitVec 16), exec (.sample x) s = .next t →
    (s.cnt + 1 ≠ s.cfg.n → t.events = []) ∧
    (s.cnt + 1 = s.cfg.n → ∃ e, t.energy = some e ∧
      ((t.events = [.energy e] ∧ t.timeline = s.timeline) ∨
       ∃ sym, t.events = [.energy e, .detect sym t.sidx] ∧ t.timeline = s.timeline ++ [⟨sym, t.sidx⟩]))) ∧
  (∀ s t : State, exec .reset s = .next t → t.events = []) ∧
  (∀ s t : State, exec .endStream s = .next t → t.events = [.decoded (t.out.map char)])

/-! ### Memory -/

/-- 20_memory R52: `TlAppend` faults exactly when `TLEN = TL_CAP`; else it writes entry `TLEN` and changes no other. -/
def Obligations.TlAppendRule : Prop :=
  ∀ (cap : Option Nat) (m : Memory) (e : Entry),
    (some m.length = cap → Memory.append cap m e = none) ∧
    (some m.length ≠ cap → ∃ m', Memory.append cap m e = some m' ∧ m'.length = m.length + 1 ∧
      Memory.read m' m.length = some e ∧ ∀ k, k < m.length → Memory.read m' k = Memory.read m k) ∧
    (cap = none → Memory.append cap m e ≠ none)

/-- 10_state R29, 20_memory R52: entries are never changed or removed except that a reset empties the timeline. -/
def Obligations.TimelineIsAppendOnly : Prop :=
  ∀ s t : State, step s = .next t →
    t.timeline = s.timeline ∨
    (∃ sym, t.timeline = s.timeline ++ [⟨sym, t.sidx⟩]) ∨
    (t.timeline = [] ∧ (s.input.head? = some .resetPin ∨ s.input.head? = some (.command 0x10000#18)))

/-! ### Invariants of the machine -/

/-- 00_scope R9, 43_session_control R152: no step changes the configuration. -/
def Obligations.ConfigurationNeverChanges : Prop :=
  ∀ s t : State, step s = .next t → t.cfg = s.cfg

/-- 10_state R26: only `RESET` or hardware reset leaves `DONE`, and only `END` enters it. -/
def Obligations.OnlyResetLeavesDone : Prop :=
  ∀ s t : State, step s = .next t →
    (s.phase = .done → t.phase ≠ .done →
      s.input.head? = some .resetPin ∨ s.input.head? = some (.command 0x10000#18)) ∧
    (s.phase ≠ .done → t.phase = .done → s.phase = .run ∧ s.input.head? = some (.command 0x20000#18))

/-- 10_state R35, the spec's own inferences: the invariants hold right after reset, for every admitted configuration. -/
def Obligations.InvariantsHoldAtReset : Prop :=
  Inv State.reset ∧ ∀ c : Config, admitted c = true → Inv (State.ofConfig c)

/-- 10_state R35, the spec's own inferences, and R31 with the bound of log 16: every step keeps the invariants. -/
def Obligations.StepKeepsInvariants : Prop :=
  ∀ s t : State, Inv s → step s = .next t → Inv t

/-! ### Arithmetic -/

/-- 00_scope R12, binary64 as the spec's general knowledge has it (log 1): the sum, difference and product of finite
numbers are correctly rounded. Short of half a unit of the last place beyond the largest finite number the result is
finite, no binary64 number is nearer to the exact result, and on a tie its fraction is even; from there on it is the
infinity of the exact result's sign. A result has the sign of the exact result if that is not zero; the last three
clauses give the sign of an exact zero. -/
def Obligations.ArithmeticCorrectlyRounded : Prop :=
  ∀ (a b : Num64) (x y : Rat), toRat a = some x → toRat b = some y →
    (∀ p ∈ [(fadd a b, x + y), (fsub a b, x - y), (fmul a b, x * y)],
      (|p.2| < (2 : Rat) ^ 1024 - 2 ^ 970 → ∃ v, toRat p.1 = some v ∧
        ∀ (d : Num64) (w : Rat), toRat d = some w →
          |v - p.2| ≤ |w - p.2| ∧ (|v - p.2| = |w - p.2| → w ≠ v → fracField p.1 % 2 = 0)) ∧
      ((2 : Rat) ^ 1024 - 2 ^ 970 ≤ |p.2| → p.1 = ofMag (decide (p.2 < 0)) infMag) ∧
      (p.2 ≠ 0 → signBit p.1 = decide (p.2 < 0))) ∧
    (x + y = 0 → fadd a b = ofMag (signBit a && signBit b) 0) ∧
    (x - y = 0 → fsub a b = ofMag (signBit a && !signBit b) 0) ∧
    (x * y = 0 → fmul a b = ofMag (signBit a != signBit b) 0)

/-- 00_scope R12, binary64 as the spec's general knowledge has it (log 1): the comparisons are those of the numbers,
and false when either operand is a NaN. -/
def Obligations.ComparisonsAreNumeric : Prop :=
  (∀ (a b : Num64) (x y : Rat), toRat a = some x → toRat b = some y →
    (flt a b = true ↔ x < y) ∧ (fgt a b = true ↔ x > y) ∧ (fge a b = true ↔ x ≥ y)) ∧
  (∀ a b : Num64, isNaN a = true ∨ isNaN b = true → flt a b = false ∧ fgt a b = false ∧ fge a b = false)

/-! ### The model's own fields -/

/-- `RESET` and hardware reset leave no returned event, and leave what is presented next as it was: the model's choice
(log 7 and log 5). -/
def Obligations.ResetLeavesModelFields : Prop :=
  ∀ s : State, admitted s.cfg = true →
    ∃ t, exec .reset s = .next t ∧ hardwareReset s = t ∧ t.events = [] ∧ t.input = s.input
end

