-- ==== Sys2Proof/Laws/State.lean ====
section
/-! SUPPORT. One lemma per field per register write, each true by rfl. -/

namespace Sys2Proof.Machine

variable (s : State)

section
variable (q1 q2 : Lanes Num64)

@[simp] theorem State.putBank_cfg : (s.putBank q1 q2).cfg = s.cfg := rfl
@[simp] theorem State.putBank_q1 : (s.putBank q1 q2).q1 = q1 := rfl
@[simp] theorem State.putBank_q2 : (s.putBank q1 q2).q2 = q2 := rfl
@[simp] theorem State.putBank_cnt : (s.putBank q1 q2).cnt = s.cnt := rfl
@[simp] theorem State.putBank_sidx : (s.putBank q1 q2).sidx = s.sidx := rfl
@[simp] theorem State.putBank_phase : (s.putBank q1 q2).phase = s.phase := rfl
@[simp] theorem State.putBank_energy : (s.putBank q1 q2).energy = s.energy := rfl
@[simp] theorem State.putBank_evalid : (s.putBank q1 q2).evalid = s.evalid := rfl
@[simp] theorem State.putBank_timeline : (s.putBank q1 q2).timeline = s.timeline := rfl
@[simp] theorem State.putBank_tracked : (s.putBank q1 q2).tracked = s.tracked := rfl
@[simp] theorem State.putBank_runlen : (s.putBank q1 q2).runlen = s.runlen := rfl
@[simp] theorem State.putBank_guard : (s.putBank q1 q2).guard = s.guard := rfl
@[simp] theorem State.putBank_out : (s.putBank q1 q2).out = s.out := rfl
@[simp] theorem State.putBank_events : (s.putBank q1 q2).events = s.events := rfl
@[simp] theorem State.putBank_input : (s.putBank q1 q2).input = s.input := rfl

end

section
variable (n : Nat)

@[simp] theorem State.putCnt_cfg : (s.putCnt n).cfg = s.cfg := rfl
@[simp] theorem State.putCnt_q1 : (s.putCnt n).q1 = s.q1 := rfl
@[simp] theorem State.putCnt_q2 : (s.putCnt n).q2 = s.q2 := rfl
@[simp] theorem State.putCnt_cnt : (s.putCnt n).cnt = n := rfl
@[simp] theorem State.putCnt_sidx : (s.putCnt n).sidx = s.sidx := rfl
@[simp] theorem State.putCnt_phase : (s.putCnt n).phase = s.phase := rfl
@[simp] theorem State.putCnt_energy : (s.putCnt n).energy = s.energy := rfl
@[simp] theorem State.putCnt_evalid : (s.putCnt n).evalid = s.evalid := rfl
@[simp] theorem State.putCnt_timeline : (s.putCnt n).timeline = s.timeline := rfl
@[simp] theorem State.putCnt_tracked : (s.putCnt n).tracked = s.tracked := rfl
@[simp] theorem State.putCnt_runlen : (s.putCnt n).runlen = s.runlen := rfl
@[simp] theorem State.putCnt_guard : (s.putCnt n).guard = s.guard := rfl
@[simp] theorem State.putCnt_out : (s.putCnt n).out = s.out := rfl
@[simp] theorem State.putCnt_events : (s.putCnt n).events = s.events := rfl
@[simp] theorem State.putCnt_input : (s.putCnt n).input = s.input := rfl

end

section
variable (n : Nat)

@[simp] theorem State.putSidx_cfg : (s.putSidx n).cfg = s.cfg := rfl
@[simp] theorem State.putSidx_q1 : (s.putSidx n).q1 = s.q1 := rfl
@[simp] theorem State.putSidx_q2 : (s.putSidx n).q2 = s.q2 := rfl
@[simp] theorem State.putSidx_cnt : (s.putSidx n).cnt = s.cnt := rfl
@[simp] theorem State.putSidx_sidx : (s.putSidx n).sidx = n := rfl
@[simp] theorem State.putSidx_phase : (s.putSidx n).phase = s.phase := rfl
@[simp] theorem State.putSidx_energy : (s.putSidx n).energy = s.energy := rfl
@[simp] theorem State.putSidx_evalid : (s.putSidx n).evalid = s.evalid := rfl
@[simp] theorem State.putSidx_timeline : (s.putSidx n).timeline = s.timeline := rfl
@[simp] theorem State.putSidx_tracked : (s.putSidx n).tracked = s.tracked := rfl
@[simp] theorem State.putSidx_runlen : (s.putSidx n).runlen = s.runlen := rfl
@[simp] theorem State.putSidx_guard : (s.putSidx n).guard = s.guard := rfl
@[simp] theorem State.putSidx_out : (s.putSidx n).out = s.out := rfl
@[simp] theorem State.putSidx_events : (s.putSidx n).events = s.events := rfl
@[simp] theorem State.putSidx_input : (s.putSidx n).input = s.input := rfl

end

section
variable (e : Lanes Num64)

@[simp] theorem State.putEnergy_cfg : (s.putEnergy e).cfg = s.cfg := rfl
@[simp] theorem State.putEnergy_q1 : (s.putEnergy e).q1 = s.q1 := rfl
@[simp] theorem State.putEnergy_q2 : (s.putEnergy e).q2 = s.q2 := rfl
@[simp] theorem State.putEnergy_cnt : (s.putEnergy e).cnt = s.cnt := rfl
@[simp] theorem State.putEnergy_sidx : (s.putEnergy e).sidx = s.sidx := rfl
@[simp] theorem State.putEnergy_phase : (s.putEnergy e).phase = s.phase := rfl
@[simp] theorem State.putEnergy_energy : (s.putEnergy e).energy = some e := rfl
@[simp] theorem State.putEnergy_evalid : (s.putEnergy e).evalid = true := rfl
@[simp] theorem State.putEnergy_timeline : (s.putEnergy e).timeline = s.timeline := rfl
@[simp] theorem State.putEnergy_tracked : (s.putEnergy e).tracked = s.tracked := rfl
@[simp] theorem State.putEnergy_runlen : (s.putEnergy e).runlen = s.runlen := rfl
@[simp] theorem State.putEnergy_guard : (s.putEnergy e).guard = s.guard := rfl
@[simp] theorem State.putEnergy_out : (s.putEnergy e).out = s.out := rfl
@[simp] theorem State.putEnergy_events : (s.putEnergy e).events = s.events := rfl
@[simp] theorem State.putEnergy_input : (s.putEnergy e).input = s.input := rfl

end

section
variable (m : Memory)

@[simp] theorem State.putTimeline_cfg : (s.putTimeline m).cfg = s.cfg := rfl
@[simp] theorem State.putTimeline_q1 : (s.putTimeline m).q1 = s.q1 := rfl
@[simp] theorem State.putTimeline_q2 : (s.putTimeline m).q2 = s.q2 := rfl
@[simp] theorem State.putTimeline_cnt : (s.putTimeline m).cnt = s.cnt := rfl
@[simp] theorem State.putTimeline_sidx : (s.putTimeline m).sidx = s.sidx := rfl
@[simp] theorem State.putTimeline_phase : (s.putTimeline m).phase = s.phase := rfl
@[simp] theorem State.putTimeline_energy : (s.putTimeline m).energy = s.energy := rfl
@[simp] theorem State.putTimeline_evalid : (s.putTimeline m).evalid = s.evalid := rfl
@[simp] theorem State.putTimeline_timeline : (s.putTimeline m).timeline = m := rfl
@[simp] theorem State.putTimeline_tracked : (s.putTimeline m).tracked = s.tracked := rfl
@[simp] theorem State.putTimeline_runlen : (s.putTimeline m).runlen = s.runlen := rfl
@[simp] theorem State.putTimeline_guard : (s.putTimeline m).guard = s.guard := rfl
@[simp] theorem State.putTimeline_out : (s.putTimeline m).out = s.out := rfl
@[simp] theorem State.putTimeline_events : (s.putTimeline m).events = s.events := rfl
@[simp] theorem State.putTimeline_input : (s.putTimeline m).input = s.input := rfl

end

section
variable (p : Phase)

@[simp] theorem State.putPhase_cfg : (s.putPhase p).cfg = s.cfg := rfl
@[simp] theorem State.putPhase_q1 : (s.putPhase p).q1 = s.q1 := rfl
@[simp] theorem State.putPhase_q2 : (s.putPhase p).q2 = s.q2 := rfl
@[simp] theorem State.putPhase_cnt : (s.putPhase p).cnt = s.cnt := rfl
@[simp] theorem State.putPhase_sidx : (s.putPhase p).sidx = s.sidx := rfl
@[simp] theorem State.putPhase_phase : (s.putPhase p).phase = p := rfl
@[simp] theorem State.putPhase_energy : (s.putPhase p).energy = s.energy := rfl
@[simp] theorem State.putPhase_evalid : (s.putPhase p).evalid = s.evalid := rfl
@[simp] theorem State.putPhase_timeline : (s.putPhase p).timeline = s.timeline := rfl
@[simp] theorem State.putPhase_tracked : (s.putPhase p).tracked = s.tracked := rfl
@[simp] theorem State.putPhase_runlen : (s.putPhase p).runlen = s.runlen := rfl
@[simp] theorem State.putPhase_guard : (s.putPhase p).guard = s.guard := rfl
@[simp] theorem State.putPhase_out : (s.putPhase p).out = s.out := rfl
@[simp] theorem State.putPhase_events : (s.putPhase p).events = s.events := rfl
@[simp] theorem State.putPhase_input : (s.putPhase p).input = s.input := rfl

end

section
variable (l : List Event)

@[simp] theorem State.putEvents_cfg : (s.putEvents l).cfg = s.cfg := rfl
@[simp] theorem State.putEvents_q1 : (s.putEvents l).q1 = s.q1 := rfl
@[simp] theorem State.putEvents_q2 : (s.putEvents l).q2 = s.q2 := rfl
@[simp] theorem State.putEvents_cnt : (s.putEvents l).cnt = s.cnt := rfl
@[simp] theorem State.putEvents_sidx : (s.putEvents l).sidx = s.sidx := rfl
@[simp] theorem State.putEvents_phase : (s.putEvents l).phase = s.phase := rfl
@[simp] theorem State.putEvents_energy : (s.putEvents l).energy = s.energy := rfl
@[simp] theorem State.putEvents_evalid : (s.putEvents l).evalid = s.evalid := rfl
@[simp] theorem State.putEvents_timeline : (s.putEvents l).timeline = s.timeline := rfl
@[simp] theorem State.putEvents_tracked : (s.putEvents l).tracked = s.tracked := rfl
@[simp] theorem State.putEvents_runlen : (s.putEvents l).runlen = s.runlen := rfl
@[simp] theorem State.putEvents_guard : (s.putEvents l).guard = s.guard := rfl
@[simp] theorem State.putEvents_out : (s.putEvents l).out = s.out := rfl
@[simp] theorem State.putEvents_events : (s.putEvents l).events = l := rfl
@[simp] theorem State.putEvents_input : (s.putEvents l).input = s.input := rfl

end

section
variable (l : List HostInput)

@[simp] theorem State.putInput_cfg : (s.putInput l).cfg = s.cfg := rfl
@[simp] theorem State.putInput_q1 : (s.putInput l).q1 = s.q1 := rfl
@[simp] theorem State.putInput_q2 : (s.putInput l).q2 = s.q2 := rfl
@[simp] theorem State.putInput_cnt : (s.putInput l).cnt = s.cnt := rfl
@[simp] theorem State.putInput_sidx : (s.putInput l).sidx = s.sidx := rfl
@[simp] theorem State.putInput_phase : (s.putInput l).phase = s.phase := rfl
@[simp] theorem State.putInput_energy : (s.putInput l).energy = s.energy := rfl
@[simp] theorem State.putInput_evalid : (s.putInput l).evalid = s.evalid := rfl
@[simp] theorem State.putInput_timeline : (s.putInput l).timeline = s.timeline := rfl
@[simp] theorem State.putInput_tracked : (s.putInput l).tracked = s.tracked := rfl
@[simp] theorem State.putInput_runlen : (s.putInput l).runlen = s.runlen := rfl
@[simp] theorem State.putInput_guard : (s.putInput l).guard = s.guard := rfl
@[simp] theorem State.putInput_out : (s.putInput l).out = s.out := rfl
@[simp] theorem State.putInput_events : (s.putInput l).events = s.events := rfl
@[simp] theorem State.putInput_input : (s.putInput l).input = l := rfl

end

section
variable (c : Collapse)

@[simp] theorem State.putCollapse_cfg : (s.putCollapse c).cfg = s.cfg := rfl
@[simp] theorem State.putCollapse_q1 : (s.putCollapse c).q1 = s.q1 := rfl
@[simp] theorem State.putCollapse_q2 : (s.putCollapse c).q2 = s.q2 := rfl
@[simp] theorem State.putCollapse_cnt : (s.putCollapse c).cnt = s.cnt := rfl
@[simp] theorem State.putCollapse_sidx : (s.putCollapse c).sidx = s.sidx := rfl
@[simp] theorem State.putCollapse_phase : (s.putCollapse c).phase = s.phase := rfl
@[simp] theorem State.putCollapse_energy : (s.putCollapse c).energy = s.energy := rfl
@[simp] theorem State.putCollapse_evalid : (s.putCollapse c).evalid = s.evalid := rfl
@[simp] theorem State.putCollapse_timeline : (s.putCollapse c).timeline = s.timeline := rfl
@[simp] theorem State.putCollapse_tracked : (s.putCollapse c).tracked = c.tracked := rfl
@[simp] theorem State.putCollapse_runlen : (s.putCollapse c).runlen = c.runlen := rfl
@[simp] theorem State.putCollapse_guard : (s.putCollapse c).guard = c.guard := rfl
@[simp] theorem State.putCollapse_out : (s.putCollapse c).out = c.out := rfl
@[simp] theorem State.putCollapse_events : (s.putCollapse c).events = s.events := rfl
@[simp] theorem State.putCollapse_input : (s.putCollapse c).input = s.input := rfl

end

theorem State.tlen_def : s.tlen = s.timeline.length := rfl

end Sys2Proof.Machine
end

