-- ==== Sys2Proof/Laws/Word.lean ====
section
/-! SUPPORT. The small lemmas of the register files. -/

namespace Sys2Proof

@[simp] theorem Lanes.get_ofFn {α : Type} (f : Bin → α) (i : Bin) : (Lanes.ofFn f).get i = f i := by
  match i with
  | 0 | 1 | 2 | 3 | 4 | 5 | 6 | 7 => rfl

@[simp] theorem Lanes.get_fill {α : Type} (a : α) (i : Bin) : (Lanes.fill a).get i = a := by
  simp [Lanes.fill]

@[ext] theorem Lanes.ext_get {α : Type} {l m : Lanes α} (h : ∀ i, l.get i = m.get i) : l = m := by
  cases l; cases m
  simpa [Lanes.get] using
    (⟨h 0, h 1, h 2, h 3, h 4, h 5, h 6, h 7⟩ : _ ∧ _ ∧ _ ∧ _ ∧ _ ∧ _ ∧ _ ∧ _)

theorem Lanes.ofFn_get {α : Type} (l : Lanes α) : Lanes.ofFn l.get = l := Lanes.ext_get (by simp)

theorem mem_bins (i : Bin) : i ∈ bins := by
  match i with
  | 0 | 1 | 2 | 3 | 4 | 5 | 6 | 7 => decide

end Sys2Proof
end

