-- ==== Sys2Proof/Laws/Ops.lean ====
section
/-! SUPPORT. What the shared checks and the timeline operations can do. -/

namespace Sys2Proof.Machine

theorem requireAdmitted_next {s t : State} {k : Out} :
    requireAdmitted s k = .next t ↔ admitted s.cfg = true ∧ k = .next t := by
  unfold requireAdmitted; split <;> simp_all

theorem requireAdmitted_fault {s : State} {k : Out} {f : Fault} :
    requireAdmitted s k = .fault f ↔ admitted s.cfg = true ∧ k = .fault f := by
  unfold requireAdmitted; split <;> simp_all

theorem requireAdmitted_of {s : State} {k : Out} (h : admitted s.cfg = true) : requireAdmitted s k = k := by
  simp [requireAdmitted, h]

theorem requireRun_next {s t : State} {k : Out} :
    requireRun s k = .next t ↔ s.phase = .run ∧ k = .next t := by
  unfold requireRun; split <;> simp_all

theorem requireRun_fault {s : State} {k : Out} {f : Fault} :
    requireRun s k = .fault f ↔ s.phase = .run ∧ k = .fault f := by
  unfold requireRun; split <;> simp_all

theorem requireRun_of {s : State} {k : Out} (h : s.phase = .run) : requireRun s k = k := by
  simp [requireRun, h]

/-- What an admitted configuration says of each parameter (00_scope R10). -/
theorem admitted_iff {c : Config} : admitted c = true ↔
    0 < c.fs ∧ 1 ≤ c.n ∧ 2 ≤ c.minc ∧ (∀ i, isFinite (c.coeff.get i) = true) ∧ gridBijective c.grid = true
      ∧ constantsLegal c = true := by
  have hb : bins.all (fun i => isFinite (c.coeff.get i)) = true ↔ ∀ i, isFinite (c.coeff.get i) = true := by
    rw [List.all_eq_true]; exact ⟨fun h i => h i (mem_bins i), fun h i _ => h i⟩
  simp only [admitted, Bool.and_eq_true, decide_eq_true_eq, hb, and_assoc]

/-- Everything `TlAppend` can answer (20_memory R52). -/
theorem Memory.append_eq_some {cap : Option Nat} {m m' : Memory} {e : Entry} :
    Memory.append cap m e = some m' ↔ some m.length ≠ cap ∧ m' = m ++ [e] := by
  unfold Memory.append timelineFull
  by_cases h : some m.length = cap <;> simp [h, eq_comm]

theorem Memory.append_eq_none {cap : Option Nat} {m : Memory} {e : Entry} :
    Memory.append cap m e = none ↔ some m.length = cap := by
  unfold Memory.append timelineFull
  by_cases h : some m.length = cap <;> simp [h]

/-- `TlAppend` leaves every entry that is there (20_memory R52), and its entry is the last. -/
theorem Memory.read_append (m : Memory) (e : Entry) (k : Nat) :
    Memory.read (m ++ [e]) k = if k = m.length then some e else Memory.read m k := by
  unfold Memory.read
  rcases Nat.lt_trichotomy k m.length with h | h | h
  · rw [List.getElem?_append_left h, if_neg (by omega)]
  · subst h; simp
  · rw [if_neg (by omega), List.getElem?_eq_none (by simp; omega), List.getElem?_eq_none (by omega)]

@[simp] theorem Memory.wf_nil (cap : Option Nat) : Memory.wf cap [] = true := by
  cases cap <;> simp [Memory.wf]

theorem Memory.wf_iff {cap : Option Nat} {m : Memory} :
    Memory.wf cap m = true ↔ (∀ c, cap = some c → m.length ≤ c) ∧ m.Pairwise fun a b => a.idx < b.idx := by
  cases cap <;> simp [Memory.wf]

/-- The one operation that changes the memory, besides clearing it, keeps its form when the new index is the largest. -/
theorem Memory.wf_append {cap : Option Nat} {m m' : Memory} {e : Entry} (h : Memory.wf cap m = true)
    (ha : Memory.append cap m e = some m') (he : ∀ a ∈ m, a.idx < e.idx) : Memory.wf cap m' = true := by
  obtain ⟨hne, rfl⟩ := Memory.append_eq_some.1 ha
  obtain ⟨hc, hp⟩ := Memory.wf_iff.1 h
  refine Memory.wf_iff.2 ⟨fun c hcap => ?_, ?_⟩
  · have : m.length ≠ c := fun hl => hne (by rw [hl, hcap])
    have := hc c hcap
    simp only [List.length_append, List.length_singleton]
    omega
  · rw [List.pairwise_append]
    exact ⟨hp, List.pairwise_singleton _ _, fun a hm b hb => by
      rw [List.mem_singleton.1 hb]; exact he a hm⟩

end Sys2Proof.Machine
end

