-- ==== Sys2Proof/Laws/Commands.lean ====
section
/-! SUPPORT. Everything each command and each step can answer, said once. -/

namespace Sys2Proof.Machine

/-- Everything `SAMPLE` can do when it answers a next state: nothing at a boundary yet, or a boundary that rejects, or
a boundary that accepts. -/
theorem execSample_cases {x : BitVec 16} {s t : State} (h : execSample x s = .next t) :
    admitted s.cfg = true ∧ s.phase = .run ∧
    ((s.cnt + 1 ≠ s.cfg.n ∧ t = (takeSample x s).putEvents []) ∨
     (s.cnt + 1 = s.cfg.n ∧ classify s.cfg (energies (takeSample x s)) = none ∧
       t = (clearBank ((takeSample x s).putEnergy (energies (takeSample x s)))).putEvents
         [.energy (energies (takeSample x s))]) ∨
     (s.cnt + 1 = s.cfg.n ∧ some s.tlen ≠ s.cfg.tlCap ∧
       ∃ sym, classify s.cfg (energies (takeSample x s)) = some sym ∧
       t = (clearBank (((takeSample x s).putEnergy (energies (takeSample x s))).putTimeline
         (s.timeline ++ [⟨sym, s.sidx + 1⟩]))).putEvents
         [.energy (energies (takeSample x s)), .detect sym (s.sidx + 1)])) := by
  obtain ⟨ha, h⟩ := requireAdmitted_next.1 h
  obtain ⟨hr, h⟩ := requireRun_next.1 h
  refine ⟨ha, hr, ?_⟩
  have hcnt : (takeSample x s).cnt = s.cnt + 1 := rfl
  have hcfg : (takeSample x s).cfg = s.cfg := rfl
  have htl : (takeSample x s).timeline = s.timeline := rfl
  have hsi : (takeSample x s).sidx = s.sidx + 1 := rfl
  simp only [hcnt, hcfg] at h
  split at h
  · rename_i hb
    unfold boundary at h
    simp only [hcfg, htl, hsi] at h
    split at h
    · rename_i hc
      exact .inr (.inl ⟨hb, hc, by simpa using h.symm⟩)
    · rename_i sym hc
      split at h
      · simp [raiseTimelineFull] at h
      · rename_i m hm
        obtain ⟨hne, rfl⟩ := Memory.append_eq_some.1 hm
        exact .inr (.inr ⟨hb, hne, sym, hc, by simpa using h.symm⟩)
  · rename_i hb
    exact .inl ⟨hb, by simpa using h.symm⟩

/-- The only fault is `TimelineFull`, of an accepted block at a full timeline (60_exceptions R161). -/
theorem execSample_fault {x : BitVec 16} {s : State} {f : Fault} (h : execSample x s = .fault f) :
    f = .timelineFull (s.sidx + 1) ∧ some s.tlen = s.cfg.tlCap := by
  obtain ⟨-, h⟩ := requireAdmitted_fault.1 h
  obtain ⟨-, h⟩ := requireRun_fault.1 h
  have hcfg : (takeSample x s).cfg = s.cfg := rfl
  have htl : (takeSample x s).timeline = s.timeline := rfl
  have hsi : (takeSample x s).sidx = s.sidx + 1 := rfl
  simp only [] at h
  split at h
  · unfold boundary at h
    simp only [hcfg, htl, hsi] at h
    split at h
    · simp at h
    · split at h
      · rename_i hm
        exact ⟨by simpa [raiseTimelineFull] using h.symm, Memory.append_eq_none.1 hm⟩
      · simp at h
  · simp at h

/-- Everything `END` can do when it answers a next state. -/
theorem execEndStream_cases {s t : State} (h : execEndStream s = .next t) :
    admitted s.cfg = true ∧ s.phase = .run ∧
      t = ((s.putCollapse (collapse s.cfg.minc s.timeline)).putPhase .done).putEvents
        [.decoded ((collapse s.cfg.minc s.timeline).out.map char)] := by
  obtain ⟨ha, h⟩ := requireAdmitted_next.1 h
  obtain ⟨hr, h⟩ := requireRun_next.1 h
  exact ⟨ha, hr, by simpa using h.symm⟩

/-- Everything `RESET` can do when it answers a next state. -/
theorem execReset_cases {s t : State} (h : execReset s = .next t) :
    admitted s.cfg = true ∧ t = sessionReset s := by
  obtain ⟨ha, h⟩ := requireAdmitted_next.1 h
  exact ⟨ha, by simpa using h.symm⟩

/-- Everything a step can do when it answers a next state: wait, take a hardware reset, or run one decoded command. -/
theorem step_cases {s t : State} (h : step s = .next t) :
    admitted s.cfg = true ∧
    ((s.input = [] ∧ t = s) ∨
     (∃ rest, s.input = .resetPin :: rest ∧ t = sessionReset (s.putInput rest)) ∨
     (∃ w rest i, s.input = .command w :: rest ∧ decode w = .ok i ∧ exec i (s.putInput rest) = .next t)) := by
  obtain ⟨ha, h⟩ := requireAdmitted_next.1 h
  refine ⟨ha, ?_⟩
  split at h
  · rename_i hi
    exact .inl ⟨hi, by simpa using h.symm⟩
  · rename_i w rest hi
    unfold present at h
    split at h
    · rename_i i hd
      exact .inr (.inr ⟨w, rest, i, hi, hd, h⟩)
    · simp [refuseReserved] at h
  · rename_i rest hi
    exact .inr (.inl ⟨rest, hi, by simpa [hardwareReset] using h.symm⟩)

/-- Running one list of commands after another. -/
theorem execAll_append (is js : List Instr) (s : State) :
    execAll (is ++ js) s =
      match execAll is s with
      | .next t => execAll js t
      | .fault f => .fault f
      | .refused r => .refused r := by
  induction is generalizing s with
  | nil => rfl
  | cons i is ih =>
    simp only [List.cons_append, execAll]
    split <;> simp_all

end Sys2Proof.Machine
end

