-- ==== Sys2Proof/Laws/Float.lean ====
section
/-! SUPPORT. What the fields of a binary64 pattern are, and what rounding does. -/

namespace Sys2Proof.Machine

theorem expField_eq (x : Num64) : expField x = x.toNat / 2 ^ 52 % 2 ^ 11 := by
  simp [expField, BitVec.extractLsb_toNat, Nat.shiftRight_eq_div_pow]

theorem fracField_eq (x : Num64) : fracField x = x.toNat % 2 ^ 52 := by
  simp [fracField, BitVec.extractLsb_toNat]

theorem magField_eq (x : Num64) : magField x = x.toNat % 2 ^ 63 := by
  simp [magField, BitVec.extractLsb_toNat]

theorem signBit_eq (x : Num64) : signBit x = decide (2 ^ 63 ≤ x.toNat) := by
  simp [signBit, BitVec.msb_eq_decide]

theorem ofMag_toNat {mag : Nat} (neg : Bool) (h : mag < 2 ^ 63) :
    (ofMag neg mag).toNat = (if neg then 2 ^ 63 else 0) + mag := by
  unfold ofMag
  rw [BitVec.toNat_append, BitVec.toNat_ofNat, Nat.mod_eq_of_lt h, ← Nat.shiftLeft_add_eq_or_of_lt h]
  cases neg <;> simp [Nat.shiftLeft_eq]

@[simp] theorem ofMag_fields {mag : Nat} (neg : Bool) (h : mag < 2 ^ 63) :
    signBit (ofMag neg mag) = neg ∧ magField (ofMag neg mag) = mag ∧ expField (ofMag neg mag) = mag / 2 ^ 52 ∧
      fracField (ofMag neg mag) = mag % 2 ^ 52 := by
  rw [signBit_eq, magField_eq, expField_eq, fracField_eq, ofMag_toNat neg h]
  cases neg
  · simp only [Bool.false_eq_true, if_false, decide_eq_false_iff_not]
    omega
  · simp only [if_true, decide_eq_true_eq]
    omega

/-- A pattern is its sign and its other bits. -/
theorem ofMag_signBit_magField (x : Num64) : ofMag (signBit x) (magField x) = x := by
  apply BitVec.eq_of_toNat_eq
  have hx := x.isLt
  rw [ofMag_toNat _ (by rw [magField_eq]; omega), signBit_eq, magField_eq]
  simp only [decide_eq_true_eq]
  split <;> omega

theorem isFinite_iff {x : Num64} : isFinite x = true ↔ magField x < infMag := by
  have hx := x.isLt
  simp only [isFinite, decide_eq_true_eq, expField_eq, magField_eq, infMag]
  omega

/-- The datum of a finite pattern, by its bits 62..0. -/
theorem unpack_ofMag {mag : Nat} (neg : Bool) (h : mag < infMag) :
    unpack (ofMag neg mag) =
      if mag < 2 ^ 52 then .fin neg mag (-1074)
      else .fin neg (mag % 2 ^ 52 + 2 ^ 52) ((mag / 2 ^ 52 : Nat) - 1075 : Int) := by
  have h63 : mag < 2 ^ 63 := by unfold infMag at h; omega
  obtain ⟨hs, -, he, hf⟩ := ofMag_fields neg h63
  unfold unpack
  rw [hs, he, hf]
  unfold infMag at h
  rw [if_neg (by omega)]
  by_cases hl : mag < 2 ^ 52
  · rw [if_pos (by omega), if_pos hl, Nat.mod_eq_of_lt hl]
  · rw [if_neg (by omega), if_neg hl]

/-- The value of the pattern whose bits 62..0 are `(q + 1074) · 2^52 + n`: `n` units of `2^q`, for a significand `n`
that is full or, in the lowest binade, any. The case `n = 2^53` is the carry into the exponent. -/
theorem toRat_ofMag {n : Nat} {q : Int} (neg : Bool) (hq : -1074 ≤ q) (hn : n ≤ 2 ^ 53)
    (hf : q = -1074 ∨ 2 ^ 52 ≤ n) (hlt : (q + 1074).toNat * 2 ^ 52 + n < infMag) :
    toRat (ofMag neg ((q + 1074).toNat * 2 ^ 52 + n)) = some ((signed neg n : Rat) * (2 : Rat) ^ q) := by
  unfold toRat
  rw [unpack_ofMag neg hlt]
  obtain ⟨k, hk⟩ : ∃ k : Nat, q = (k : Int) - 1074 := ⟨(q + 1074).toNat, by omega⟩
  have hk' : (q + 1074).toNat = k := by omega
  rw [hk'] at hlt ⊢
  rcases Nat.lt_or_ge n (2 ^ 52) with h52 | h52
  · have hk0 : k = 0 := by omega
    subst hk0
    rw [if_pos (by omega)]
    simp [hk]
  · rw [if_neg (by omega)]
    rcases Nat.lt_or_ge n (2 ^ 53) with h53 | h53
    · have h1 : (k * 2 ^ 52 + n) % 2 ^ 52 + 2 ^ 52 = n := by omega
      have h2 : (((k * 2 ^ 52 + n) / 2 ^ 52 : Nat) : Int) - 1075 = q := by omega
      simp only [h1, h2]
    · have hn' : n = 2 ^ 53 := by omega
      subst hn'
      have h1 : (k * 2 ^ 52 + 2 ^ 53) % 2 ^ 52 + 2 ^ 52 = 2 ^ 52 := by omega
      have h2 : (((k * 2 ^ 52 + 2 ^ 53) / 2 ^ 52 : Nat) : Int) - 1075 = q + 1 := by omega
      simp only [h1, h2, Option.some.injEq]
      rw [zpow_add₀ (by norm_num : (2 : Rat) ≠ 0)]
      cases neg <;> simp [signed] <;> ring

@[simp] theorem toRat_zero (neg : Bool) : toRat (ofMag neg 0) = some 0 := by
  have h := toRat_ofMag (n := 0) (q := -1074) neg (by omega) (by omega) (.inl rfl) (by simp [infMag])
  simpa [signed] using h

/-- The last place of the binary64 number nearest to a nonzero `m · 2^e`. -/
theorem ulpExp_bounds (m : Nat) (e : Int) :
    -1074 ≤ ulpExp m e ∧
    (ulpExp m e = -1074 ∨ ulpExp m e = (Nat.log2 m : Int) + e - 52) ∧
    (Nat.log2 m : Int) + e - 52 ≤ ulpExp m e := by
  unfold ulpExp
  omega

theorem roundShift_exact (n k : Nat) : roundShift (n * 2 ^ k) k = n := by
  have hp : 0 < 2 ^ k := Nat.two_pow_pos k
  have h1 : n * 2 ^ k / 2 ^ k = n := Nat.mul_div_cancel n hp
  have h2 : n * 2 ^ k % 2 ^ k = 0 := Nat.mul_mod_left n (2 ^ k)
  simp only [roundShift, h1, h2]
  rw [if_neg (by omega)]

/-- Rounding to a whole number of units is off by half a unit at most, and by exactly half only to an even number. -/
theorem roundShift_near (m k : Nat) :
    (2 * (roundShift m k * 2 ^ k) ≤ 2 * m + 2 ^ k) ∧ (2 * m ≤ 2 * (roundShift m k * 2 ^ k) + 2 ^ k) ∧
    ((2 * (roundShift m k * 2 ^ k) = 2 * m + 2 ^ k ∨ 2 * m = 2 * (roundShift m k * 2 ^ k) + 2 ^ k) →
      roundShift m k % 2 = 0) := by
  have hp : 0 < 2 ^ k := Nat.two_pow_pos k
  have hd : 2 ^ k * (m / 2 ^ k) + m % 2 ^ k = m := Nat.div_add_mod m (2 ^ k)
  have hr : m % 2 ^ k < 2 ^ k := Nat.mod_lt _ hp
  simp only [roundShift]
  generalize m / 2 ^ k = n at *
  generalize m % 2 ^ k = r at *
  generalize 2 ^ k = p at *
  have hc : p * n = n * p := Nat.mul_comm p n
  split
  · have : (n + 1) * p = n * p + p := by ring
    rw [this]
    refine ⟨by omega, by omega, fun h => by omega⟩
  · refine ⟨by omega, by omega, fun h => by omega⟩

theorem log2_bounds {m : Nat} (hm : m ≠ 0) : 2 ^ Nat.log2 m ≤ m ∧ m < 2 ^ (Nat.log2 m + 1) :=
  ⟨Nat.log2_self_le hm, Nat.lt_log2_self⟩

theorem roundShift_le {m k b : Nat} (h : m ≤ b * 2 ^ k) : roundShift m k ≤ b := by
  by_contra hb
  have hp : 0 < 2 ^ k := Nat.two_pow_pos k
  obtain ⟨h1, -, h3⟩ := roundShift_near m k
  have h2 : (b + 1) * 2 ^ k ≤ roundShift m k * 2 ^ k := Nat.mul_le_mul_right _ (by omega)
  have h4 : (b + 1) * 2 ^ k = b * 2 ^ k + 2 ^ k := by ring
  omega

theorem le_roundShift {m k b : Nat} (h : b * 2 ^ k ≤ m) : b ≤ roundShift m k := by
  by_contra hb
  have hp : 0 < 2 ^ k := Nat.two_pow_pos k
  obtain ⟨-, h2, -⟩ := roundShift_near m k
  have h1 : (roundShift m k + 1) * 2 ^ k ≤ b * 2 ^ k := Nat.mul_le_mul_right _ (by omega)
  have h4 : (roundShift m k + 1) * 2 ^ k = roundShift m k * 2 ^ k + 2 ^ k := by ring
  omega

/-- The rounded significand has at most 53 bits (or is the carry `2^53`), and is full above the lowest binade. -/
theorem scaleTo_bounds {m : Nat} (hm : m ≠ 0) (e : Int) :
    scaleTo m e (ulpExp m e) ≤ 2 ^ 53 ∧ (ulpExp m e = -1074 ∨ 2 ^ 52 ≤ scaleTo m e (ulpExp m e)) := by
  obtain ⟨h0, h1, h2⟩ := ulpExp_bounds m e
  obtain ⟨hlo, hhi⟩ := log2_bounds hm
  generalize ulpExp m e = q at *
  generalize hL : Nat.log2 m = L at *
  unfold scaleTo
  split
  · rename_i hqe
    obtain ⟨d, hd⟩ : ∃ d : Nat, e - q = d := ⟨(e - q).toNat, by omega⟩
    rw [hd, Int.toNat_natCast]
    have hLd : L + d ≤ 52 := by omega
    constructor
    · calc m * 2 ^ d ≤ 2 ^ (L + 1) * 2 ^ d := Nat.mul_le_mul_right _ hhi.le
        _ = 2 ^ (L + 1 + d) := (pow_add 2 _ _).symm
        _ ≤ 2 ^ 53 := Nat.pow_le_pow_right (by omega) (by omega)
    · rcases h1 with h1 | h1
      · exact .inl h1
      · right
        have : L + d = 52 := by omega
        calc 2 ^ 52 = 2 ^ (L + d) := by rw [this]
          _ = 2 ^ L * 2 ^ d := pow_add 2 _ _
          _ ≤ m * 2 ^ d := Nat.mul_le_mul_right _ hlo
  · rename_i hqe
    obtain ⟨d, hd⟩ : ∃ d : Nat, q - e = d := ⟨(q - e).toNat, by omega⟩
    rw [hd, Int.toNat_natCast]
    constructor
    · apply roundShift_le
      calc m ≤ 2 ^ (L + 1) := hhi.le
        _ ≤ 2 ^ (53 + d) := Nat.pow_le_pow_right (by omega) (by omega)
        _ = 2 ^ 53 * 2 ^ d := pow_add 2 _ _
    · rcases h1 with h1 | h1
      · exact .inl h1
      · right
        apply le_roundShift
        have : 52 + d = L := by omega
        calc 2 ^ 52 * 2 ^ d = 2 ^ (52 + d) := (pow_add 2 _ _).symm
          _ = 2 ^ L := by rw [this]
          _ ≤ m := hlo

/-- Everything `roundPack` can answer for a nonzero magnitude: the infinity of its sign, or the number of units of the
last place that `scaleTo` rounds to. -/
theorem roundPack_cases {m : Nat} (hm : m ≠ 0) (neg : Bool) (e : Int) :
    (roundPack neg m e = ofMag neg infMag ∧
      infMag ≤ (ulpExp m e + 1074).toNat * 2 ^ 52 + scaleTo m e (ulpExp m e)) ∨
    (roundPack neg m e = ofMag neg ((ulpExp m e + 1074).toNat * 2 ^ 52 + scaleTo m e (ulpExp m e)) ∧
      (ulpExp m e + 1074).toNat * 2 ^ 52 + scaleTo m e (ulpExp m e) < infMag ∧
      toRat (roundPack neg m e) =
        some ((signed neg (scaleTo m e (ulpExp m e)) : Rat) * (2 : Rat) ^ ulpExp m e)) := by
  obtain ⟨h0, -, -⟩ := ulpExp_bounds m e
  obtain ⟨h53, h52⟩ := scaleTo_bounds hm e
  have hr : roundPack neg m e =
      ofMag neg (min ((ulpExp m e + 1074).toNat * 2 ^ 52 + scaleTo m e (ulpExp m e)) infMag) := by
    rw [roundPack, if_neg hm]
  rcases Nat.lt_or_ge ((ulpExp m e + 1074).toNat * 2 ^ 52 + scaleTo m e (ulpExp m e)) infMag with hlt | hge
  · right
    rw [hr, Nat.min_eq_left hlt.le]
    exact ⟨rfl, hlt, toRat_ofMag neg h0 h53 h52 hlt⟩
  · left
    rw [hr, Nat.min_eq_right hge]
    exact ⟨rfl, hge⟩

/-- A magnitude of at most 53 bits whose last place lies in the range of the format is not changed by rounding. -/
theorem toRat_roundPack_exact {m : Nat} {e : Int} (neg : Bool) (hm : m < 2 ^ 53) (he : -1074 ≤ e) (he' : e ≤ 971) :
    toRat (roundPack neg m e) = some ((signed neg m : Rat) * (2 : Rat) ^ e) := by
  by_cases h0 : m = 0
  · subst h0
    simp [roundPack, signed]
  · obtain ⟨hq, -, -⟩ := ulpExp_bounds m e
    obtain ⟨hlo, -⟩ := log2_bounds h0
    have hL : Nat.log2 m ≤ 52 := by
      by_contra hc
      have : 2 ^ 53 ≤ 2 ^ Nat.log2 m := Nat.pow_le_pow_right (by omega) (by omega)
      omega
    have hqe : ulpExp m e ≤ e := by unfold ulpExp; omega
    have hs : scaleTo m e (ulpExp m e) = m * 2 ^ (e - ulpExp m e).toNat := by rw [scaleTo, if_pos hqe]
    obtain ⟨h53, -⟩ := scaleTo_bounds h0 e
    rcases roundPack_cases h0 neg e with ⟨-, hge⟩ | ⟨-, -, hv⟩
    · exfalso
      unfold infMag at hge
      rcases Int.lt_or_le (ulpExp m e) 971 with hlt | h971
      · have : (ulpExp m e + 1074).toNat ≤ 2044 := by omega
        have : (ulpExp m e + 1074).toNat * 2 ^ 52 ≤ 2044 * 2 ^ 52 := Nat.mul_le_mul_right _ this
        omega
      · have h1 : ulpExp m e = 971 := by omega
        have h2 : e = 971 := by omega
        rw [hs, h1, h2] at hge
        simp at hge
        omega
    · rw [hv, hs]
      obtain ⟨d, hd⟩ : ∃ d : Nat, e = ulpExp m e + d := ⟨(e - ulpExp m e).toNat, by omega⟩
      have hd' : (e - ulpExp m e).toNat = d := by omega
      rw [hd']
      conv_rhs => rw [hd]
      rw [zpow_add₀ (by norm_num : (2 : Rat) ≠ 0), zpow_natCast]
      cases neg <;> simp [signed] <;> ring

theorem ofMag_false_zero : ofMag false 0 = zero := by decide

/-- A finite pattern has a finite datum of at most 53 significant bits, whose last place is in the range of the format
and is the unit of its own rounding. -/
theorem unpack_finite {x : Num64} (h : isFinite x = true) :
    ∃ m e, unpack x = .fin (signBit x) m e ∧ m < 2 ^ 53 ∧ -1074 ≤ e ∧ e ≤ 971 ∧
      (e = -1074 ∨ 2 ^ 52 ≤ m) ∧ magField x = (e + 1074).toNat * 2 ^ 52 + m := by
  have hm := isFinite_iff.1 h
  have hu := unpack_ofMag (signBit x) hm
  rw [ofMag_signBit_magField] at hu
  unfold infMag at hm
  by_cases hl : magField x < 2 ^ 52
  · rw [if_pos hl] at hu
    exact ⟨_, _, hu, by omega, by omega, by omega, .inl rfl, by simp⟩
  · rw [if_neg hl] at hu
    refine ⟨_, _, hu, by omega, by omega, by omega, .inr (by omega), ?_⟩
    have hk : ((magField x / 2 ^ 52 : Nat) - 1075 + 1074 : Int).toNat = magField x / 2 ^ 52 - 1 := by omega
    rw [hk]
    omega

/-- A full significand, or any in the lowest binade, is its own rounding. -/
theorem roundPack_normal {m : Nat} {e : Int} (neg : Bool) (hm : m < 2 ^ 53) (he : -1074 ≤ e) (he' : e ≤ 971)
    (hf : e = -1074 ∨ 2 ^ 52 ≤ m) : roundPack neg m e = ofMag neg ((e + 1074).toNat * 2 ^ 52 + m) := by
  by_cases h0 : m = 0
  · subst h0
    have : e = -1074 := by omega
    subst this
    simp [roundPack]
  · obtain ⟨hlo, hhi⟩ := log2_bounds h0
    have hL : Nat.log2 m ≤ 52 := by
      by_contra hc
      have : 2 ^ 53 ≤ 2 ^ Nat.log2 m := Nat.pow_le_pow_right (by omega) (by omega)
      omega
    have hq : ulpExp m e = e := by
      rcases hf with hf | hf
      · unfold ulpExp; omega
      · have : 52 ≤ Nat.log2 m := by
          by_contra hc
          have : 2 ^ (Nat.log2 m + 1) ≤ 2 ^ 52 := Nat.pow_le_pow_right (by omega) (by omega)
          omega
        unfold ulpExp; omega
    rw [roundPack, if_neg h0, hq]
    have hs : scaleTo m e e = m := by simp [scaleTo]
    simp only [hs]
    rw [Nat.min_eq_left]
    calc (e + 1074).toNat * 2 ^ 52 + m ≤ 2045 * 2 ^ 52 + 2 ^ 53 :=
          Nat.add_le_add (Nat.mul_le_mul_right _ (by omega)) hm.le
      _ = infMag := by norm_num [infMag]

/-- Rounding a number that is already in the format gives its pattern back. -/
theorem roundPack_unpack {x : Num64} {neg : Bool} {m : Nat} {e : Int} (h : unpack x = .fin neg m e) :
    roundPack neg m e = x := by
  have hx : isFinite x = true := by
    simp only [isFinite, decide_eq_true_eq]
    intro he
    unfold unpack at h
    rw [if_pos he] at h
    split at h <;> cases h
  obtain ⟨m', e', hu, hm, he, he', hf, hmag⟩ := unpack_finite hx
  rw [h] at hu
  cases hu
  rw [roundPack_normal _ hm he he' hf, ← hmag, ofMag_signBit_magField]

theorem unpack_zero (neg : Bool) : unpack (ofMag neg 0) = .fin neg 0 (-1074) := by
  rw [unpack_ofMag neg (by simp [infMag]), if_pos (by omega)]

/-- A finite number whose bits 62..0 are not all zero has a nonzero significand. -/
theorem unpack_nonzero {x : Num64} {m : Nat} {e : Int} {neg : Bool} (hu : unpack x = .fin neg m e)
    (h0 : magField x ≠ 0) : m ≠ 0 := by
  rintro rfl
  have hx := ofMag_signBit_magField x
  rw [← roundPack_unpack hu, roundPack, if_pos rfl, (ofMag_fields neg (by omega)).2.1] at h0
  exact h0 rfl

/-- Adding a zero to a nonzero finite number leaves it as it is. -/
theorem fadd_zero_left {x : Num64} (s : Bool) (hx : isFinite x = true) (h0 : magField x ≠ 0) :
    fadd (ofMag s 0) x = x := by
  obtain ⟨m, e, hu, -⟩ := unpack_finite hx
  have hm0 := unpack_nonzero hu h0
  unfold fadd
  rw [unpack_zero, hu]
  show (some (addFin _ _ _ _ _ _)).getD _ = x
  rw [Option.getD_some, addFin, if_pos rfl, if_neg hm0]
  exact roundPack_unpack hu

/-- Adding a nonzero finite number to a zero gives that number. -/
theorem fadd_zero_right {x : Num64} (s : Bool) (hx : isFinite x = true) (h0 : magField x ≠ 0) :
    fadd x (ofMag s 0) = x := by
  obtain ⟨m, e, hu, -⟩ := unpack_finite hx
  have hm0 := unpack_nonzero hu h0
  unfold fadd
  rw [unpack_zero, hu]
  show (some (addFin _ _ _ _ _ _)).getD _ = x
  rw [Option.getD_some, addFin, if_neg hm0, if_pos rfl]
  exact roundPack_unpack hu

/-- Taking a zero from a nonzero finite number leaves it as it is. -/
theorem fsub_zero_right {x : Num64} (s : Bool) (hx : isFinite x = true) (h0 : magField x ≠ 0) :
    fsub x (ofMag s 0) = x := by
  obtain ⟨m, e, hu, -⟩ := unpack_finite hx
  have hm0 := unpack_nonzero hu h0
  unfold fsub
  rw [unpack_zero, hu]
  show (some (addFin _ _ _ _ _ _)).getD _ = x
  rw [Option.getD_some, addFin, if_neg hm0, if_pos rfl]
  exact roundPack_unpack hu

/-- The sum of two zeros: minus only when both are minus. -/
theorem fadd_zero_zero (s t : Bool) : fadd (ofMag s 0) (ofMag t 0) = ofMag (s && t) 0 := by
  unfold fadd
  rw [unpack_zero, unpack_zero]
  cases s <;> cases t <;> simp [addDatum, addFin]

/-- The difference of two zeros. -/
theorem fsub_zero_zero (s t : Bool) : fsub (ofMag s 0) (ofMag t 0) = ofMag (s && !t) 0 := by
  unfold fsub
  rw [unpack_zero, unpack_zero]
  cases s <;> cases t <;> simp [Datum.neg, addDatum, addFin]

/-- A finite number times a zero is a zero, of the product's sign. -/
theorem fmul_zero_right {x : Num64} (t : Bool) (hx : isFinite x = true) :
    fmul x (ofMag t 0) = ofMag (signBit x != t) 0 := by
  obtain ⟨m, e, hu, -⟩ := unpack_finite hx
  unfold fmul
  rw [unpack_zero, hu]
  simp [mulDatum, roundPack]

@[simp] theorem isFinite_zero (s : Bool) : isFinite (ofMag s 0) = true := by
  rw [isFinite_iff, (ofMag_fields s (by omega)).2.1]; simp [infMag]

end Sys2Proof.Machine
end

