-- ==== Sys2Proof/Laws/PerInstr.lean ====
section
/-! SUPPORT. A statement about every command as syntax: its word has the match bits of spec/opcode_table.json under
the mask of its row (30_encoding R71 to R73). -/

namespace Sys2Proof.Laws.TableMatch

/-- The `mask` of the command's row. -/
def maskOf : Instr → CommandWord
  | .sample _ => 0x30000#18
  | .reset => 0x3FFFF#18
  | .endStream => 0x3FFFF#18

/-- The `match` of the command's row. -/
def matchOf : Instr → CommandWord
  | .sample _ => 0x00000#18
  | .reset => 0x10000#18
  | .endStream => 0x20000#18

/-- The command's word has its row's match bits. -/
def Statement (i : Instr) : Prop := encode i &&& maskOf i = matchOf i

theorem sample (s : BitVec 16) : Statement (.sample s) := by
  have h : (0b00#2 ++ s) &&& (0b11#2 ++ 0x0000#16) = (0b00#2 &&& 0b11#2) ++ (s &&& 0x0000#16) := BitVec.and_append
  exact h.trans (by simp [matchOf])

theorem reset : Statement .reset := by unfold Statement; decide

theorem endStream : Statement .endStream := by unfold Statement; decide

end Sys2Proof.Laws.TableMatch
end

