-- ==== Sys2Proof/Laws/Temporal.lean ====
section
/-! SUPPORT. The walk of END is a fold over the symbols of the timeline. -/

namespace Sys2Proof.Machine

theorem collapseWalk_eq_foldl (minc : Nat) (m : Memory) :
    ∀ (n k : Nat) (r : Collapse), k + n = m.length →
      collapseWalk minc m n k r = ((m.drop k).map Entry.sym).foldl (collapseStep minc) r
  | 0, k, r, h => by simp [collapseWalk, List.drop_of_length_le (show m.length ≤ k by omega)]
  | n + 1, k, r, h => by
    have hk : k < m.length := by omega
    have hr : Memory.read m k = some m[k] := by simp [Memory.read, hk]
    rw [collapseWalk, hr, List.drop_eq_getElem_cons hk, List.map_cons, List.foldl_cons]
    exact collapseWalk_eq_foldl minc m n (k + 1) (collapseStep minc r m[k].sym) (by omega)

/-- `collapse` in one pass over the symbols; the indices of the entries play no part. -/
theorem collapse_eq_foldl (minc : Nat) (m : Memory) :
    collapse minc m = (m.map Entry.sym).foldl (collapseStep minc) collapseStart := by
  simpa [collapse] using collapseWalk_eq_foldl minc m m.length 0 collapseStart (by omega)

end Sys2Proof.Machine
end

