-- ==== Sys2Proof/Tests/Slice0.lean ====
section
/-! SUPPORT. The model's own tests. Expected values are the spec's (95_test_vectors, or the rule named); the last part
holds one witness for the hypotheses of each statement of Certificates/Slice0/Obligations.lean. -/

namespace Sys2Proof.Tests

open Sys2Proof.Machine Sys2Proof.Safety

/-! ### Well-formedness and configuration checks -/

theorem test_script_sample_too_large_refused : ScriptLine.wellFormed (.sample 32768) = false := by decide
theorem test_script_samples_too_small_refused : ScriptLine.wellFormed (.samples [0, -32769]) = false := by decide
theorem test_script_decode_too_large_refused : ScriptLine.wellFormed (.decode [40000]) = false := by decide
theorem test_script_extremes_well_formed : ScriptLine.wellFormed (.samples [-32768, 32767]) = true := by decide
/-- 30_encoding R71: every SAMPLE is legal, so no command is ill formed. -/
theorem test_extreme_sample_well_formed : Instr.wellFormed (.sample 0x8000#16) = true := by decide

theorem test_default_config_admitted : admitted defaultConfig = true := by decide
theorem test_fs_zero_not_admitted : admitted { defaultConfig with fs := 0 } = false := by decide
theorem test_n_zero_not_admitted : admitted { defaultConfig with n := 0 } = false := by decide
theorem test_minc_one_not_admitted : admitted { defaultConfig with minc := 1 } = false := by decide
theorem test_infinite_coeff_not_admitted :
    admitted { defaultConfig with coeff := Lanes.fill 0x7ff0000000000000#64 } = false := by decide
theorem test_grid_twice_not_admitted :
    admitted { defaultConfig with grid := ⟨⟨1, 1, 3, 10⟩, ⟨4, 5, 6, 11⟩, ⟨7, 8, 9, 12⟩, ⟨14, 0, 15, 13⟩⟩ } = false := by
  decide
theorem test_other_threshold_not_admitted : admitted { defaultConfig with pkHi := pkLoValue } = false := by decide

/-! ### Words of 95_test_vectors 4.3 -/

theorem test_decode_sample_1000 : decode 0b00_0000001111101000#18 = .ok (.sample 1000#16) := by decide
theorem test_decode_sample_minus_32768 : decode 0b00_1000000000000000#18 = .ok (.sample (BitVec.ofInt 16 (-32768))) := by
  decide
theorem test_decode_reset : decode 0b01_0000000000000000#18 = .ok .reset := by decide
theorem test_decode_end : decode 0b10_0000000000000000#18 = .ok .endStream := by decide
theorem test_decode_reset_with_data_reserved : decode 0x10001#18 = .error .reservedData := by decide
theorem test_decode_end_with_data_reserved : decode 0x2FFFF#18 = .error .reservedData := by decide
theorem test_decode_op3_reserved : decode 0x3ABCD#18 = .error .reservedOp := by decide
theorem test_encode_sample_minus_2000 : encode (.sample (BitVec.ofInt 16 (-2000))) = 0x0F830#18 := by decide
theorem test_encode_reset : encode .reset = 0x10000#18 := by decide
theorem test_encode_end : encode .endStream = 0x20000#18 := by decide
theorem test_table_words : decodeTableWord 24 0x03E8 = some (.sample 1000#16) ∧ decodeTableWord 24 0x10000 = some .reset
    ∧ decodeTableWord 24 0x20000 = some .endStream ∧ decodeTableWord 24 0x30000 = none
    ∧ decodeTableWord 24 0x40000 = none := by decide
/-- 30_encoding R77 and 95_test_vectors 4.3: the entry (5, 205). -/
theorem test_entry_word : Entry.word ⟨0x5#4, 205⟩ = 0x00000000000000CD5#68 := by decide
/-- 30_encoding R78: a line of a script with a comment. -/
theorem test_read_line : readLine "SAMPLE -1 # comment".toList = some [.sample (-1)] := by decide
theorem test_assemble : assemble defaultConfig [.decode [-1], .silence 1] =
    some [.command 0x10000#18, .command 0x0FFFF#18, .command 0x20000#18, .command 0x00000#18] := by decide

/-! ### Binary64 -/

/-- 10_state R34: the hexadecimal forms are the binary64 values nearest to the literals. -/
theorem test_literals : lit 4 5 = eFloorValue ∧ lit 398 (-3) = twNormalValue ∧ lit 158 (-3) = twReverseValue
    ∧ lit 1 9 = pkLevelValue ∧ lit 10 (-3) = pkLoValue := by decide +kernel
/-- IEEE 754 overflow, at the bound and one place below it: the largest finite number plus `2^970`, and plus the number
before `2^970`. -/
theorem test_fadd_overflow_bound : fadd 0x7fefffffffffffff#64 0x7c90000000000000#64 = 0x7ff0000000000000#64 ∧
    fadd 0x7fefffffffffffff#64 0x7c8fffffffffffff#64 = 0x7fefffffffffffff#64 := by decide +kernel
/-- IEEE 754 signed zeros: `(-0) + (-0)`, `(-0) - (+0)`, `1 - 1` and `(-1) · 0`. -/
theorem test_signed_zeros : fadd 0x8000000000000000#64 0x8000000000000000#64 = 0x8000000000000000#64 ∧
    fsub 0x8000000000000000#64 zero = 0x8000000000000000#64 ∧
    fsub 0x3ff0000000000000#64 0x3ff0000000000000#64 = zero ∧
    fmul 0xbff0000000000000#64 zero = 0x8000000000000000#64 := by decide +kernel
/-- IEEE 754: 2^53 + 1 is a tie and goes to the even 2^53; 2^53 + 3 goes to 2^53 + 4. -/
theorem test_fadd_ties_to_even : fadd 0x4340000000000000#64 0x3ff0000000000000#64 = 0x4340000000000000#64
    ∧ fadd 0x4340000000000001#64 0x3ff0000000000000#64 = 0x4340000000000002#64 := by decide
/-- 95_test_vectors K10: `fmul(2.0e6, 0.398) = 796000.0` exactly. -/
theorem test_fmul_k10 : fmul (lit 2 6) twNormalValue = lit 796 3 := by decide +kernel
/-- 40_goertzel_bank R92, corner case: a negative coefficient times zero, and the register still holds `+0.0`. -/
theorem test_silent_lane : filterOut 0xbff0000000000000#64 zero zero zero = zero := by decide
/-- 40_goertzel_bank R92, worked example: 1.5, -500, 1000, sample 3000 gives 1250. -/
theorem test_filter_example : filterOut (lit 15 (-1)) (fromInt16 (BitVec.ofInt 16 (-500))) (fromInt16 1000#16)
    (fromInt16 3000#16) = fromInt16 1250#16 := by decide +kernel
/-- 40_goertzel_bank R95, worked example: 2875, 1250, 1.5 gives 4437500. -/
theorem test_energy_example : laneEnergy (lit 15 (-1)) (fromInt16 2875#16) (fromInt16 1250#16) = lit 4437500 0 := by
  decide +kernel

/-! ### The Classifier: 95_test_vectors section 3 -/

/-- 2.0e9, 2.0e9, 1, 1, 3.16e8, 1, 1, 1: accepted as the symbol 1. -/
theorem test_classify_k22 : classify defaultConfig
    ⟨lit 2 9, lit 2 9, lit 1 0, lit 1 0, lit 316 6, lit 1 0, lit 1 0, lit 1 0⟩ = some 0x1#4 := by decide +kernel
/-- Last row, last column: the symbol D. -/
theorem test_classify_k18 : classify defaultConfig
    ⟨lit 1 0, lit 1 0, lit 1 0, lit 5 6, lit 1 0, lit 1 0, lit 1 0, lit 5 6⟩ = some 0xD#4 := by decide +kernel
/-- Normal twist, 790000 < 796000: rejected. -/
theorem test_classify_k8 : classify defaultConfig
    ⟨lit 79 4, lit 1 0, lit 1 0, lit 1 0, lit 2 6, lit 1 0, lit 1 0, lit 1 0⟩ = none := by decide +kernel
/-- One side bin over one percent: rejected. -/
theorem test_classify_k12 : classify defaultConfig
    ⟨lit 3 6, lit 1 0, lit 1 0, lit 1 0, lit 29 5, lit 4 4, lit 1 0, lit 1 0⟩ = none := by decide +kernel

/-! ### Small states -/

/-- The configuration of 95_test_vectors P1: `N = 4`. -/
def cfg4 : Config := buildConfig 8000 4 2
  ⟨0x0000000000000000#64, 0x3ff0000000000000#64, 0xbff0000000000000#64, 0x4000000000000000#64,
   0xc000000000000000#64, 0x3fe0000000000000#64, 0x3ff8000000000000#64, 0xbfe0000000000000#64⟩ none

/-- The configuration of 95_test_vectors P2: `N = 12`, with a timeline capacity. -/
def cfg12 (cap : Option Nat) : Config := buildConfig 8000 12 2
  ⟨0x4000000000000000#64, 0x0000000000000000#64, 0x3ff0000000000000#64, 0x3ff0000000000000#64,
   0xc000000000000000#64, 0xbff0000000000000#64, 0x3ff0000000000000#64, 0x3ff0000000000000#64⟩ cap

/-- `n` samples of a session taken, `cnt` of them in this block. -/
def midSession (cfg : Config) (q1 q2 : Lanes Num64) (cnt n : Nat) : State :=
  { State.ofConfig cfg with q1 := q1, q2 := q2, cnt := cnt, sidx := n }

/-- The state of 95_test_vectors G1 after its third sample. -/
def stateG1 : State := midSession cfg4
  ⟨lit 2000 0, lit 1000 0, lit 5000 0, lit 2000 0, lit 10000 0, lit 1250 0, lit 1250 0, lit 3250 0⟩
  ⟨fromInt16 (BitVec.ofInt 16 (-2000)), fromInt16 (BitVec.ofInt 16 (-1000)), fromInt16 (BitVec.ofInt 16 (-3000)), zero,
    fromInt16 (BitVec.ofInt 16 (-4000)), fromInt16 (BitVec.ofInt 16 (-1500)), fromInt16 (BitVec.ofInt 16 (-500)),
    fromInt16 (BitVec.ofInt 16 (-2500))⟩ 3 3

/-- The state of 95_test_vectors P2 before the twelfth sample of its first block `ONE`. -/
def stateP2 (cap : Option Nat) (tl : Memory) : State :=
  (midSession (cfg12 cap) ⟨lit 72000 0, zero, zero, zero, lit 72000 0, zero, zero, zero⟩
    ⟨lit 60000 0, zero, zero, zero, fsub zero (lit 60000 0), zero, zero, zero⟩ 11 11).putTimeline tl

/-- A session whose timeline holds the symbols of 95_test_vectors T8. -/
def stateT8 : State :=
  (State.ofConfig cfg4).putTimeline [⟨5, 4⟩, ⟨5, 8⟩, ⟨7, 12⟩, ⟨5, 16⟩, ⟨5, 20⟩]

/-- The events of a next state. -/
def eventsOf : Out → Option (List Event)
  | .next t => some t.events
  | .fault _ => none
  | .refused _ => none

/-! ### One step each -/

/-- 95_test_vectors G1: the fourth sample's energies, and no detection. -/
theorem test_sample_g1_boundary : eventsOf (exec (.sample 500#16) stateG1) = some [.energy
    ⟨lit 10250000 0, lit 4750000 0, lit 19750000 0, lit 6250000 0, lit 30250000 0, lit 6812500 0, lit 4437500 0,
      lit 14687500 0⟩] := by decide +kernel
/-- 95_test_vectors P2: the first block `ONE` is detected as the symbol 1 at index 12. -/
theorem test_sample_p2_detect : eventsOf (exec (.sample 0#16) (stateP2 none [])) = some [.energy
    ⟨lit 144000000 0, zero, zero, zero, lit 144000000 0, zero, zero, zero⟩, .detect 0x1#4 12] := by decide +kernel
/-- 95_test_vectors T8: `5,5,7,5,5` with `MINC = 2` gives "55". -/
theorem test_end_t8 : eventsOf (exec .endStream stateT8) = some [.decoded [0x35#8, 0x35#8]] := by decide
/-- 95_test_vectors X2: `END` straight after reset returns the empty string. -/
theorem test_end_empty : eventsOf (exec .endStream State.reset) = some [.decoded []] := by decide
/-- 95_test_vectors X7: `RESET` inside a sample block leaves the reset state. -/
theorem test_reset_mid_block : (match exec .reset stateG1 with
    | .next t => decide (t = State.ofConfig cfg4)
    | .fault _ => false
    | .refused _ => false) = true := by decide
/-- 95_test_vectors X6: a reserved word in `DONE` is refused as reserved. -/
theorem test_reserved_in_done :
    step ((State.reset.putPhase .done).putInput [.command 0x30000#18]) = .refused .reservedCommand := by rfl
/-- The host's question: the first instruction after reset. -/
theorem test_first_instruction_after_reset : (match step (State.reset.withFetchWord 24 0x003E8) with
    | .next t => decide (t.cnt = 1 ∧ t.sidx = 1 ∧ t.q1 = Lanes.fill (fromInt16 1000#16) ∧ t.input = [])
    | .fault _ => false
    | .refused _ => false) = true := by decide

/-! ### Witnesses: the hypotheses of each statement can be met -/

/-- The decoder with one word presented, under the configuration `cfg4`. -/
def presenting (i : HostInput) : State := (State.ofConfig cfg4).putInput [i]

theorem admitted_cfg4 : admitted cfg4 = true := by decide
theorem admitted_cfg12 : admitted (cfg12 none) = true ∧ admitted (cfg12 (some 2)) = true := by decide

theorem wit_DecodeEncodeRoundTrip : Instr.wellFormed (.sample 0xFFFF#16) = true := by decide
theorem wit_EncodeDecodeUnique : decode 0x08000#18 = .ok (.sample 0x8000#16) := by decide
theorem wit_ReservedWordsRefused_clauses :
    (0x0FFFF#18 : CommandWord).toNat < 0x10000 ∧ (0x10000#18 : CommandWord).toNat = 0x10000 ∧
    (0x20000#18 : CommandWord).toNat = 0x20000 ∧ 0x30000 ≤ (0x30000#18 : CommandWord).toNat ∧
    (0x10000 < (0x1FFFF#18 : CommandWord).toNat ∧ (0x1FFFF#18 : CommandWord).toNat < 0x20000) ∧
    (0x20000 < (0x20001#18 : CommandWord).toNat ∧ (0x20001#18 : CommandWord).toNat < 0x30000) := by decide
theorem wit_ReservedWordsRefused_state : admitted (presenting (.command 0x3FFFF#18)).cfg = true ∧
    (presenting (.command 0x3FFFF#18)).input = .command 0x3FFFF#18 :: [] := by decide
theorem wit_SampleOperandIsTwosComplement : (0x07FFF#18 : CommandWord).toNat < 0x10000 ∧
    (0x08000#18 : CommandWord).toNat < 0x10000 ∧ 0x10000 ≤ (0x10000#18 : CommandWord).toNat ∧
    decode 0x10000#18 = .ok .reset := by decide
theorem wit_DecodeScriptExpansion : ∀ v ∈ ([-32768, 32767] : List Int), -32768 ≤ v ∧ v ≤ 32767 := by decide
theorem wit_StepRunsDecodedCommand : admitted (presenting (.command 0x20000#18)).cfg = true ∧
    (presenting (.command 0x20000#18)).input = .command 0x20000#18 :: [] ∧ decode 0x20000#18 = .ok .endStream := by decide
theorem wit_PlacedWordRunsNext : admitted State.reset.cfg = true ∧ 0x3E8 < 2 ^ 24 ∧
    decodeTableWord 24 0x3E8 = some (.sample 1000#16) := by decide
theorem wit_IdleStepChangesNothing : admitted State.reset.cfg = true ∧ State.reset.input = [] := by decide
theorem wit_HardwareResetActsAsReset : admitted (presenting .resetPin).cfg = true ∧
    (presenting .resetPin).input = .resetPin :: [] := by decide
/-- Both sides of `UnadmittedConfigurationRefused`: an admitted instance and one with `MINC = 1`. -/
theorem wit_UnadmittedConfigurationRefused : admitted State.reset.cfg = true ∧
    ¬ 2 ≤ (State.ofConfig { defaultConfig with minc := 1 }).cfg.minc := by decide
theorem wit_NonOkOutcomesComplete_fault :
    (match step ((stateP2 (some 2) [⟨1, 4⟩, ⟨1, 8⟩]).putInput [.command 0x00000#18]) with
      | .next _ => false
      | .fault f => decide (f = .timelineFull 12)
      | .refused _ => false) = true := by decide +kernel
theorem wit_NonOkOutcomesComplete_refused :
    step ((State.reset.putPhase .done).putInput [.command 0x20000#18]) = .refused .outOfProtocol := by rfl
theorem wit_SampleInsideBlock : admitted State.reset.cfg = true ∧ State.reset.phase = .run ∧
    State.reset.cnt + 1 ≠ State.reset.cfg.n := by decide

/-- The registers and energies that the boundary statements speak of, for any state: they exist by the rules. -/
theorem boundary_data (s : State) (x : BitVec 16) : ∃ q1' e : Lanes Num64,
    q1' = (takeSample x s).q1 ∧ e = energies (takeSample x s) ∧
    (∀ i, q1'.get i = fadd (fsub (fmul (s.cfg.coeff.get i) (s.q1.get i)) (s.q2.get i)) (fromInt16 x)) ∧
    (∀ i, e.get i = fsub (fadd (fmul (q1'.get i) (q1'.get i)) (fmul (s.q1.get i) (s.q1.get i)))
      (fmul (fmul (s.cfg.coeff.get i) (q1'.get i)) (s.q1.get i))) :=
  ⟨_, _, rfl, rfl,
    fun i => by simp [takeSample, countSample, filterUpdate, filterOut],
    fun i => by simp [energies, laneEnergy, takeSample, countSample, filterUpdate]⟩

/-- The clauses of `SampleOperandIsTwosComplement` about `exec`: `SAMPLE` completes inside a block and at a boundary, and
the registers it speaks of exist. -/
theorem wit_SampleOperandIsTwosComplement_exec : ((eventsOf (exec (.sample 0xFFFF#16) State.reset)).isSome = true ∧
    State.reset.cnt + 1 ≠ State.reset.cfg.n) ∧ ((eventsOf (exec (.sample 0x8000#16) stateG1)).isSome = true ∧
    stateG1.cnt + 1 = stateG1.cfg.n) ∧ ∀ (s : State) (x : BitVec 16), ∃ q1' : Lanes Num64, ∀ i, q1'.get i =
      fadd (fsub (fmul (s.cfg.coeff.get i) (s.q1.get i)) (s.q2.get i)) (fromInt16 x) :=
  ⟨by decide +kernel, by decide +kernel, fun s x =>
    let ⟨q, _, _, _, h, _⟩ := boundary_data s x
    ⟨q, h⟩⟩

theorem wit_SampleRejectedBoundary : ∃ q1' e : Lanes Num64,
    admitted stateG1.cfg = true ∧ stateG1.phase = .run ∧ stateG1.cnt + 1 = stateG1.cfg.n ∧
    (∀ i, q1'.get i = fadd (fsub (fmul (stateG1.cfg.coeff.get i) (stateG1.q1.get i)) (stateG1.q2.get i))
      (fromInt16 500#16)) ∧
    (∀ i, e.get i = fsub (fadd (fmul (q1'.get i) (q1'.get i)) (fmul (stateG1.q1.get i) (stateG1.q1.get i)))
      (fmul (fmul (stateG1.cfg.coeff.get i) (q1'.get i)) (stateG1.q1.get i))) ∧
    classify stateG1.cfg e = none := by
  obtain ⟨q1', e, -, he, h1, h2⟩ := boundary_data stateG1 500#16
  exact ⟨q1', e, by decide, by decide, by decide, h1, h2, by rw [he]; decide +kernel⟩

theorem wit_SampleAcceptedBoundary : ∃ q1' e : Lanes Num64,
    admitted (stateP2 none []).cfg = true ∧ (stateP2 none []).phase = .run ∧
    (stateP2 none []).cnt + 1 = (stateP2 none []).cfg.n ∧
    (∀ i, q1'.get i = fadd (fsub (fmul ((stateP2 none []).cfg.coeff.get i) ((stateP2 none []).q1.get i))
      ((stateP2 none []).q2.get i)) (fromInt16 0#16)) ∧
    (∀ i, e.get i = fsub (fadd (fmul (q1'.get i) (q1'.get i))
        (fmul ((stateP2 none []).q1.get i) ((stateP2 none []).q1.get i)))
      (fmul (fmul ((stateP2 none []).cfg.coeff.get i) (q1'.get i)) ((stateP2 none []).q1.get i))) ∧
    classify (stateP2 none []).cfg e = some 0x1#4 ∧ (stateP2 none []).cfg.tlCap ≠ some (stateP2 none []).tlen := by
  obtain ⟨q1', e, -, he, h1, h2⟩ := boundary_data (stateP2 none []) 0#16
  exact ⟨q1', e, by decide, by decide, by decide, h1, h2, by rw [he]; decide +kernel, by decide⟩

/-- The same state at a timeline of capacity 2 that is full. -/
def stateFull : State := stateP2 (some 2) [⟨1, 4⟩, ⟨1, 8⟩]

theorem wit_TimelineFullFaults : ∃ q1' e : Lanes Num64,
    admitted stateFull.cfg = true ∧ stateFull.phase = .run ∧ stateFull.cnt + 1 = stateFull.cfg.n ∧
    (∀ i, q1'.get i = fadd (fsub (fmul (stateFull.cfg.coeff.get i) (stateFull.q1.get i)) (stateFull.q2.get i))
      (fromInt16 0#16)) ∧
    (∀ i, e.get i = fsub (fadd (fmul (q1'.get i) (q1'.get i)) (fmul (stateFull.q1.get i) (stateFull.q1.get i)))
      (fmul (fmul (stateFull.cfg.coeff.get i) (q1'.get i)) (stateFull.q1.get i))) ∧
    classify stateFull.cfg e = some 0x1#4 ∧ stateFull.cfg.tlCap = some stateFull.tlen := by
  obtain ⟨q1', e, -, he, h1, h2⟩ := boundary_data stateFull 0#16
  exact ⟨q1', e, by decide, by decide, by decide, h1, h2, by rw [he]; decide +kernel, by decide⟩

theorem wit_SampleCompletes : admitted stateG1.cfg = true ∧ stateG1.phase = .run ∧ stateG1.cfg.tlCap = none := by decide

/-- `SAMPLE` answers a next state: in a sample block, at a rejected and at an accepted boundary. -/
theorem wit_SampleFrame : (eventsOf (exec (.sample 7#16) State.reset)).isSome = true ∧
    (eventsOf (exec (.sample 500#16) stateG1)).isSome = true ∧
    (eventsOf (exec (.sample 0#16) (stateP2 none []))).isSome = true := by decide +kernel

/-- Two states that agree in lane 0 and differ in lane 7. -/
theorem wit_LanesAreIndependent :
    let s := midSession cfg4 (Lanes.fill zero) (Lanes.fill zero) 1 1
    let s' := midSession cfg4 ⟨zero, zero, zero, zero, zero, zero, zero, lit 1 0⟩ (Lanes.fill zero) 1 1
    s ≠ s' ∧ s.cfg.coeff.get 0 = s'.cfg.coeff.get 0 ∧ s.q1.get 0 = s'.q1.get 0 ∧ s.q2.get 0 = s'.q2.get 0 ∧
    s.cnt = s'.cnt ∧ s.cfg.n = s'.cfg.n ∧ (eventsOf (exec (.sample 3#16) s)).isSome = true ∧
    (eventsOf (exec (.sample 3#16) s')).isSome = true := by decide +kernel

theorem wit_FirstSampleOfBlock : admitted State.reset.cfg = true ∧ State.reset.phase = .run ∧
    State.reset.cnt + 1 ≠ State.reset.cfg.n ∧ State.reset.q1 = Lanes.fill 0#64 ∧ State.reset.q2 = Lanes.fill 0#64 := by
  decide

/-- `N = 1` with all coefficients zero. -/
def stateN1 : State := State.ofConfig (buildConfig 8000 1 2 (Lanes.fill 0#64) none)

theorem wit_OneSampleBlockEnergy : admitted stateN1.cfg = true ∧ stateN1.phase = .run ∧ stateN1.cfg.n = 1 ∧
    stateN1.cnt = 0 ∧ stateN1.cfg.tlCap = none ∧ (∀ i, ∃ y, toRat (stateN1.cfg.coeff.get i) = some y ∧ |y| ≤ 2) ∧
    stateN1.q1 = Lanes.fill 0#64 ∧ stateN1.q2 = Lanes.fill 0#64 := by
  refine ⟨by decide, by decide, by decide, by decide, by decide, fun i => ⟨0, ?_, by norm_num⟩, by decide, by decide⟩
  show toRat ((Lanes.fill 0#64).get i) = some 0
  rw [Lanes.get_fill]
  exact toRat_zero false

theorem wit_SilentBlockRejected : admitted (State.ofConfig cfg4).cfg = true ∧ (State.ofConfig cfg4).phase = .run ∧
    (State.ofConfig cfg4).cnt = 0 ∧ (State.ofConfig cfg4).q1 = Lanes.fill 0#64 ∧
    (State.ofConfig cfg4).q2 = Lanes.fill 0#64 ∧ 4 ≤ (State.ofConfig cfg4).cfg.n := by decide

/-- The energies of 95_test_vectors K11, with ties in both groups. -/
def energiesK11 : Lanes Num64 := ⟨lit 5 6, lit 9 6, lit 9 6, lit 1 0, lit 2 6, lit 2 6, lit 7 6, lit 7 6⟩

theorem wit_ArgmaxTakesLowestIndex : (∀ i, isNaN (energiesK11.get i) = false) ∧ rowBin energiesK11 = 1 ∧
    colBin energiesK11 = 6 := by decide +kernel

/-- 95_test_vectors K1, both below the floor. -/
theorem wit_EnergyFloorRejects : admitted defaultConfig = true ∧
    ¬ (fge ((Lanes.fill zero).get (rowBin (Lanes.fill zero))) (lit 4 5) = true ∧
       fge ((Lanes.fill zero).get (colBin (Lanes.fill zero))) (lit 4 5) = true) := by decide +kernel

/-- 95_test_vectors K8 and K6: each twist test. -/
theorem wit_TwistRejects :
    let n : Lanes Num64 := ⟨lit 79 4, lit 1 0, lit 1 0, lit 1 0, lit 2 6, lit 1 0, lit 1 0, lit 1 0⟩
    let r : Lanes Num64 := ⟨lit 1 7, lit 1 0, lit 1 0, lit 1 0, lit 1 6, lit 1 0, lit 1 0, lit 1 0⟩
    admitted defaultConfig = true ∧
    (fgt (n.get (colBin n)) (n.get (rowBin n)) = true ∧
      flt (n.get (rowBin n)) (fmul (n.get (colBin n)) (lit 398 (-3))) = true) ∧
    (fgt (r.get (colBin r)) (r.get (rowBin r)) = false ∧
      flt (r.get (colBin r)) (fmul (r.get (rowBin r)) (lit 158 (-3))) = true) := by decide +kernel

theorem wit_ClassifierAcceptsExactly : admitted defaultConfig = true := by decide

/-- 95_test_vectors K24 and K23, a NaN in the column bin, and a NaN in a bin that is neither. -/
theorem wit_ClassifierOnNaNAndInfinity :
    let nan : Num64 := 0x7ff8000000000000#64
    let inf : Num64 := 0x7ff0000000000000#64
    let k24 : Lanes Num64 := ⟨nan, lit 5 5, lit 1 0, lit 1 0, lit 5 5, lit 1 0, lit 1 0, lit 1 0⟩
    let kc : Lanes Num64 := ⟨lit 5 5, lit 1 0, lit 1 0, lit 1 0, nan, lit 5 5, lit 1 0, lit 1 0⟩
    let k23 : Lanes Num64 := ⟨inf, lit 1 0, lit 1 0, lit 1 0, inf, lit 1 0, nan, lit 1 0⟩
    admitted defaultConfig = true ∧ isNaN (k24.get (rowBin k24)) = true ∧ isNaN (kc.get (colBin kc)) = true ∧
    isNaN (k23.get 6) = true ∧ k23.get (rowBin k23) = inf ∧ k23.get (colBin k23) = inf := by decide +kernel

theorem wit_EndResultAndFrame : admitted stateT8.cfg = true ∧ stateT8.phase = .run := by decide

/-- Each clause of `CollapseStepRules`: a switch, an emission, a repeat below the threshold, a repeat under the guard. -/
theorem wit_CollapseStepRules :
    (⟨none, 1, none, []⟩ : Collapse).tracked ≠ some 5#4 ∧
    ((⟨some 5#4, 1, none, []⟩ : Collapse).tracked = some 5#4 ∧ 1 + 1 ≥ 2 ∧
      (⟨some 5#4, 1, none, []⟩ : Collapse).guard ≠ some 5#4) ∧
    ((⟨some 5#4, 1, none, []⟩ : Collapse).tracked = some 5#4 ∧ ¬ (1 + 1 ≥ 3 ∧ (none : Option Symbol) ≠ some 5#4)) ∧
    ((⟨some 5#4, 0, some 5#4, [5#4]⟩ : Collapse).tracked = some 5#4 ∧
      ¬ (0 + 1 ≥ 2 ∧ some 5#4 ≠ some 5#4)) := by decide

/-- `2 ≤ MINC` at its boundary, with runs on both sides of it: 95_test_vectors T7 and T10. -/
theorem wit_CollapseKeepsLongRuns : 2 ≤ 2 ∧ (collapse 2 [⟨5, 1⟩, ⟨5, 2⟩, ⟨7, 3⟩, ⟨7, 4⟩]).out = [5#4, 7#4] ∧
    (collapse 2 [⟨5, 1⟩, ⟨7, 2⟩, ⟨5, 3⟩, ⟨7, 4⟩]).out = [] := by decide
theorem wit_DecodedLengthBound : 2 ≤ 2 ∧ (collapse 2 [⟨5, 1⟩, ⟨5, 2⟩]).out.length = 2 / 2 := by decide
theorem wit_TimestampsAreIgnored : ([⟨5, 1⟩, ⟨7, 2⟩] : Memory).map Entry.sym = ([⟨5, 9⟩, ⟨7, 30⟩] : Memory).map Entry.sym ∧
    ([⟨5, 1⟩, ⟨7, 2⟩] : Memory) ≠ [⟨5, 9⟩, ⟨7, 30⟩] := by decide
theorem wit_DecodedIsLowercaseHex : (eventsOf (exec .endStream stateT8)).isSome = true := by decide
/-- Both phases of `ProtocolTable`, and a reserved word. -/
theorem wit_ProtocolTable : admitted State.reset.cfg = true ∧ State.reset.phase = .run ∧
    admitted (State.reset.putPhase .done).cfg = true ∧ (State.reset.putPhase .done).phase ≠ .run ∧
    (State.reset.putPhase .idle).phase ≠ .run ∧ decode 0x30000#18 = .error .reservedOp := by decide
theorem wit_DecodeSessionCompletes : admitted stateT8.cfg = true ∧ stateT8.cfg.tlCap = none := by decide
theorem wit_SessionsAreIndependent : stateG1 ≠ State.ofConfig cfg4 ∧ stateG1.cfg = (State.ofConfig cfg4).cfg ∧
    stateG1.input = (State.ofConfig cfg4).input := by decide +kernel
theorem wit_ResetLeaves : admitted stateG1.cfg = true := by decide
theorem wit_ResetLeavesModelFields : admitted (presenting (.command 0x20000#18)).cfg = true ∧
    (presenting (.command 0x20000#18)).input ≠ [] := by decide
theorem wit_EventsOfEachCommand : (eventsOf (exec (.sample 7#16) State.reset)).isSome = true ∧
    State.reset.cnt + 1 ≠ State.reset.cfg.n ∧ (eventsOf (exec (.sample 500#16) stateG1)).isSome = true ∧
    stateG1.cnt + 1 = stateG1.cfg.n ∧ (eventsOf (exec .reset State.reset)).isSome = true ∧
    (eventsOf (exec .endStream State.reset)).isSome = true := by decide +kernel
/-- Each clause of `TlAppendRule`: a full timeline, one with room, an infinite one. -/
theorem wit_TlAppendRule : some ([⟨5, 1⟩] : Memory).length = some 1 ∧ some ([] : Memory).length ≠ some 1 ∧
    (none : Option Nat) = none := by decide
/-- A step that answers a next state, from `RUN` and from `DONE`. -/
theorem wit_step_next : (eventsOf (step (presenting (.command 0x20000#18)))).isSome = true ∧
    (eventsOf (step ((presenting (.command 0x10000#18)).putPhase .done))).isSome = true ∧
    (eventsOf (step ((stateP2 none []).putInput [.command 0x00000#18]))).isSome = true := by decide +kernel
/-- `OnlyResetLeavesDone`: a step out of `DONE`, and a step into it. -/
theorem wit_OnlyResetLeavesDone :
    (match step ((presenting (.command 0x10000#18)).putPhase .done) with
      | .next t => decide (t.phase ≠ .done)
      | .fault _ => false
      | .refused _ => false) = true ∧
    (match step (presenting (.command 0x20000#18)) with
      | .next t => decide (t.phase = .done)
      | .fault _ => false
      | .refused _ => false) = true := by decide
theorem wit_InvariantsHoldAtReset : admitted (cfg12 (some 2)) = true := by decide

/-- `StepKeepsInvariants`: the reset state with an `END` presented meets the invariants and answers a next state. -/
theorem wit_StepKeepsInvariants : Inv (presenting (.command 0x20000#18)) ∧
    (eventsOf (step (presenting (.command 0x20000#18)))).isSome = true :=
  ⟨{ cnt_lt := by decide, sidx_mod := fun _ => by decide, tlen_le := by decide, idx_block := by decide,
     timeline_wf := by decide, bank_clear := fun _ _ => by decide, evalid_iff := by decide, energy_valid := by decide,
     collapse_start := fun _ => by decide, guard_tracked := by decide, runlen_le := by decide, out_le := by decide,
     phase_ne_idle := by decide }, by decide⟩

/-- Finite operands for each clause: 1 and 1, the largest finite number twice, whose exact sum is beyond the
overflow bound, and two zeros, whose sum, difference and product are zero. -/
theorem wit_ArithmeticCorrectlyRounded : toRat (roundPack false 1 0) = some 1 ∧
    |(1 : Rat) + 1| < (2 : Rat) ^ 1024 - 2 ^ 970 ∧ (1 : Rat) + 1 ≠ 0 ∧
    (∃ x, toRat (ofMag false (infMag - 1)) = some x ∧ (2 : Rat) ^ 1024 - 2 ^ 970 ≤ |x + x|) ∧
    toRat (ofMag true 0) = some 0 ∧ (0 : Rat) + 0 = 0 ∧ (0 : Rat) - 0 = 0 ∧ (0 : Rat) * 0 = 0 := by
  have h1 : (1 : Rat) ≤ 2 ^ 970 := one_le_pow₀ (by norm_num)
  have h2 : (2 : Rat) ^ 1024 = 2 ^ 54 * 2 ^ 970 := by rw [← pow_add]
  have h3 : (2 : Rat) ^ (971 : Int) = 2 * 2 ^ 970 := by
    rw [show (971 : Int) = ((1 + 970 : Nat) : Int) from rfl, zpow_natCast, pow_add, pow_one]
  refine ⟨?_, ?_, by norm_num,
    ⟨_, toRat_ofMag (n := 2 ^ 53 - 1) (q := 971) false (by omega) (by omega) (.inr (by omega)) (by decide), ?_⟩,
    toRat_zero true, by norm_num, by norm_num, by norm_num⟩
  · rw [toRat_roundPack_exact false (by omega) (by omega) (by omega)]
    simp [signed]
  · rw [h2, abs_of_nonneg (by norm_num)]
    generalize (2 : Rat) ^ 970 = u at h1
    linarith
  · have h4 : (signed false (2 ^ 53 - 1) : Rat) = 2 ^ 53 - 1 := by norm_num [signed]
    rw [h2, h3, h4]
    generalize (2 : Rat) ^ 970 = u at h1
    rw [abs_of_nonneg (by linarith)]
    linarith

theorem wit_ComparisonsAreNumeric : toRat (roundPack false 1 0) = some 1 ∧ toRat (ofMag true 0) = some 0 ∧
    isNaN 0x7ff8000000000000#64 = true := by
  refine ⟨?_, toRat_zero true, by decide⟩
  rw [toRat_roundPack_exact false (by omega) (by omega) (by omega)]
  simp [signed]

end Sys2Proof.Tests
end

section
/-! SUPPORT. What the checks can refuse, and what no command writes: the lemmas about commands and steps that the
statements of 00_scope need besides `step_cases`. -/

namespace Sys2Proof.Machine

theorem exec_sample (x : BitVec 16) (s : State) : exec (.sample x) s = execSample x s := rfl
theorem exec_reset (s : State) : exec .reset s = execReset s := rfl
theorem exec_endStream (s : State) : exec .endStream s = execEndStream s := rfl

theorem requireAdmitted_refused {s : State} {k : Out} {r : Refusal} : requireAdmitted s k = .refused r ↔
    (admitted s.cfg = false ∧ r = .badConfiguration) ∨ (admitted s.cfg = true ∧ k = .refused r) := by
  unfold requireAdmitted
  cases admitted s.cfg <;> simp [eq_comm]

theorem requireAdmitted_of_not {s : State} {k : Out} (h : admitted s.cfg = false) :
    requireAdmitted s k = .refused .badConfiguration := by
  simp [requireAdmitted, h]

theorem requireRun_refused {s : State} {k : Out} {r : Refusal} : requireRun s k = .refused r ↔
    (s.phase ≠ .run ∧ r = .outOfProtocol) ∨ (s.phase = .run ∧ k = .refused r) := by
  unfold requireRun
  by_cases hp : s.phase = .run <;> simp [hp, eq_comm]

/-- A block boundary completes or faults; it refuses nothing. -/
theorem boundary_ne_refused (s : State) (r : Refusal) : boundary s ≠ .refused r := by
  unfold boundary
  dsimp only
  split
  · simp
  · split <;> simp [raiseTimelineFull]

/-- Everything a command can be refused for (60_exceptions R161): a configuration that is not admitted, or a command
other than `RESET` outside `RUN`. -/
theorem exec_refused {i : Instr} {s : State} {r : Refusal} (h : exec i s = .refused r) :
    (admitted s.cfg = false ∧ r = .badConfiguration) ∨
    (admitted s.cfg = true ∧ i ≠ .reset ∧ s.phase ≠ .run ∧ r = .outOfProtocol) := by
  cases i with
  | sample x =>
    rw [exec_sample, execSample, requireAdmitted_refused, requireRun_refused] at h
    obtain h | ⟨ha, ⟨hp, rfl⟩ | ⟨-, h⟩⟩ := h
    · exact .inl h
    · exact .inr ⟨ha, by simp, hp, rfl⟩
    · dsimp only at h
      split at h
      · exact absurd h (boundary_ne_refused _ r)
      · simp at h
  | reset =>
    rw [exec_reset, execReset, requireAdmitted_refused] at h
    simpa using h
  | endStream =>
    rw [exec_endStream, execEndStream, requireAdmitted_refused, requireRun_refused] at h
    obtain h | ⟨ha, ⟨hp, rfl⟩ | ⟨-, h⟩⟩ := h
    · exact .inl h
    · exact .inr ⟨ha, by simp, hp, rfl⟩
    · simp at h

/-- Construction's refusal comes before everything a command does. -/
theorem exec_of_not_admitted {s : State} (i : Instr) (h : admitted s.cfg = false) :
    exec i s = .refused .badConfiguration := by
  cases i <;> exact requireAdmitted_of_not h

theorem exec_ne_badConfiguration {s : State} (i : Instr) (h : admitted s.cfg = true) :
    exec i s ≠ .refused .badConfiguration := by
  intro hr
  rcases exec_refused hr with ⟨hn, -⟩ | ⟨-, -, -, hp⟩
  · simp [h] at hn
  · cases hp

theorem step_of_not_admitted {s : State} (h : admitted s.cfg = false) : step s = .refused .badConfiguration :=
  requireAdmitted_of_not h

/-- A step with nothing presented (log 6). -/
theorem step_nil {s : State} (ha : admitted s.cfg = true) (hi : s.input = []) : step s = .next s := by
  simp [step, takeInput, requireAdmitted_of ha, hi]

/-- A step at a presented word decodes it and runs it (30_encoding R70). -/
theorem step_command {s : State} {w : CommandWord} {rest : List HostInput} (ha : admitted s.cfg = true)
    (hi : s.input = .command w :: rest) : step s = present w (s.putInput rest) := by
  simp [step, takeInput, requireAdmitted_of ha, hi]

/-- A step at a hardware reset (43_session_control R151). -/
theorem step_resetPin {s : State} {rest : List HostInput} (ha : admitted s.cfg = true)
    (hi : s.input = .resetPin :: rest) : step s = .next (hardwareReset (s.putInput rest)) := by
  simp [step, takeInput, requireAdmitted_of ha, hi]

theorem present_of_ok {w : CommandWord} {i : Instr} (s : State) (h : decode w = .ok i) : present w s = exec i s := by
  simp [present, h]

theorem present_of_error {w : CommandWord} {e : DecodeError} (s : State) (h : decode w = .error e) :
    present w s = .refused .reservedCommand := by
  simp [present, h, refuseReserved]

theorem step_ne_badConfiguration {s : State} (h : admitted s.cfg = true) : step s ≠ .refused .badConfiguration := by
  match hi : s.input with
  | [] => simp [step_nil h hi]
  | .command w :: rest =>
    rw [step_command h hi]
    cases hd : decode w with
    | ok i => rw [present_of_ok _ hd]; exact exec_ne_badConfiguration i h
    | error e => simp [present_of_error _ hd]
  | .resetPin :: rest => simp [step_resetPin h hi]

@[simp] theorem sessionReset_cfg (s : State) : (sessionReset s).cfg = s.cfg := rfl
@[simp] theorem takeSample_cfg (x : BitVec 16) (s : State) : (takeSample x s).cfg = s.cfg := rfl
@[simp] theorem clearBank_cfg (s : State) : (clearBank s).cfg = s.cfg := rfl

/-- No command writes the configuration registers (00_scope R9). -/
theorem exec_cfg {i : Instr} {s t : State} (h : exec i s = .next t) : t.cfg = s.cfg := by
  cases i with
  | sample x =>
    obtain ⟨-, -, ⟨-, rfl⟩ | ⟨-, -, rfl⟩ | ⟨-, -, sym, -, rfl⟩⟩ := execSample_cases h <;> simp
  | reset =>
    obtain ⟨-, rfl⟩ := execReset_cases h
    simp
  | endStream =>
    obtain ⟨-, -, rfl⟩ := execEndStream_cases h
    simp

end Sys2Proof.Machine
end

section
/-! SUPPORT. What an admitted grid and an admitted coefficient are in the words of 00_scope R10. -/

namespace Sys2Proof.Machine

/-- The sixteen places of the grid, row by row. -/
theorem gridSymbols_eq_map (c : Config) : gridSymbols c.grid =
    (List.finRange 4 ×ˢ List.finRange 4).map fun p => gridAt c p.1 p.2 := rfl

/-- Sixteen places without a repetition are a bijection onto the sixteen symbols: an injective map between finite types
of the same size. -/
theorem gridBijective_iff (c : Config) :
    gridBijective c.grid = true ↔ ∀ sym, ∃! p : Fin 4 × Fin 4, gridAt c p.1 p.2 = sym := by
  have hplaces : (List.finRange 4 ×ˢ List.finRange 4).Nodup := (List.nodup_finRange 4).product (List.nodup_finRange 4)
  have hcard : Nat.card (Fin 4 × Fin 4) = Nat.card Symbol := by
    rw [Nat.card_congr (BitVec.equivFin (m := 4)).toEquiv]
    simp
  rw [← Function.bijective_iff_existsUnique fun p : Fin 4 × Fin 4 => gridAt c p.1 p.2,
    Nat.bijective_iff_injective_and_card, and_iff_left hcard, gridBijective, decide_eq_true_eq, gridSymbols_eq_map,
    List.nodup_map_iff_inj_on hplaces]
  have hmem (p : Fin 4 × Fin 4) : p ∈ List.finRange 4 ×ˢ List.finRange 4 :=
    List.mem_product.2 ⟨List.mem_finRange _, List.mem_finRange _⟩
  exact ⟨fun h p q hpq => h p (hmem p) q (hmem q) hpq, fun h p _ q _ hpq => h hpq⟩

theorem toRat_ne_none_iff {x : Num64} : toRat x ≠ none ↔ isFinite x = true := by
  unfold toRat unpack isFinite
  by_cases he : expField x = 2047
  · by_cases hf : fracField x = 0 <;> simp [he, hf]
  · by_cases h0 : expField x = 0 <;> simp [he, h0]

/-- `admitted_iff` with the coefficients as numbers and the grid as a bijection. -/
theorem admitted_iff_numeric {c : Config} : admitted c = true ↔
    0 < c.fs ∧ 1 ≤ c.n ∧ 2 ≤ c.minc ∧ (∀ i, toRat (c.coeff.get i) ≠ none) ∧
      (∀ sym, ∃! p : Fin 4 × Fin 4, gridAt c p.1 p.2 = sym) ∧ constantsLegal c = true := by
  simp only [admitted_iff, toRat_ne_none_iff, gridBijective_iff]

end Sys2Proof.Machine
end

section
/-! The statements of 00_scope about admission and the step. -/

namespace Sys2Proof.Proofs

open Sys2Proof.Machine

/-- Settles O9, from what a step does at a presented word. -/
theorem stepRunsDecodedCommand : Obligations.StepRunsDecodedCommand := by
  intro s w rest i ha hi hd
  rw [step_command ha hi, present_of_ok _ hd]

/-- Settles O11. -/
theorem idleStepChangesNothing : Obligations.IdleStepChangesNothing :=
  fun _ ha hi => step_nil ha hi

/-- Settles O46, by the three things a step can do. -/
theorem configurationNeverChanges : Obligations.ConfigurationNeverChanges := by
  intro s t h
  obtain ⟨-, ⟨-, rfl⟩ | ⟨rest, -, rfl⟩ | ⟨w, rest, i, -, -, he⟩⟩ := step_cases h
  · rfl
  · simp
  · simpa using exec_cfg he

/-- Settles O13: admission is the statement's condition, and `BadConfiguration` is refused exactly without it. -/
theorem unadmittedConfigurationRefused : Obligations.UnadmittedConfigurationRefused := by
  intro s
  dsimp only
  rw [← admitted_iff_numeric, Bool.not_eq_true]
  exact ⟨fun h => ⟨step_of_not_admitted h, fun i => exec_of_not_admitted i h⟩,
    fun h => ⟨step_ne_badConfiguration h, fun i => exec_ne_badConfiguration i h⟩⟩

end Sys2Proof.Proofs
end

section
/-! SUPPORT. The value of a finite pattern as a strictly increasing function of its place in the order of the binary64
numbers (00_scope R12, log 1). -/

namespace Sys2Proof.Machine

/-- A pattern with a value is finite: its sign, a significand of at most 53 bits and its last place give its bits 62..0
and its value. -/
theorem toRat_eq_some {a : Num64} {x : Rat} (h : toRat a = some x) :
    ∃ m e, unpack a = .fin (signBit a) m e ∧ x = (signed (signBit a) m : Rat) * 2 ^ e ∧ m < 2 ^ 53 ∧ -1074 ≤ e ∧
      (e = -1074 ∨ 2 ^ 52 ≤ m) ∧ magField a = (e + 1074).toNat * 2 ^ 52 + m := by
  have hfin : isFinite a = true := toRat_ne_none_iff.1 (by simp [h])
  obtain ⟨m, e, hu, hm, he, -, hf, hmag⟩ := unpack_finite hfin
  refine ⟨m, e, hu, ?_, hm, he, hf, hmag⟩
  simpa [toRat, hu] using h.symm

/-- The value of the nonnegative pattern with bits 62..0 equal to `k`, for exponent fields of any size: the units of the
last place, counted in the binade of `k`. -/
def magValue (k : Nat) : Rat := (k - (k / 2 ^ 52 - 1) * 2 ^ 52 : Nat) * 2 ^ ((k / 2 ^ 52 - 1 : Nat) - 1074 : Int)

/-- `n` units of `2^(j - 1074)`, for a significand `n` that is full or, in the lowest binade, any. The case `n = 2^53` is
the carry into the exponent. -/
theorem magValue_eq {j n : Nat} (hn : n ≤ 2 ^ 53) (hf : j = 0 ∨ 2 ^ 52 ≤ n) :
    magValue (j * 2 ^ 52 + n) = n * 2 ^ (j - 1074 : Int) := by
  unfold magValue
  rcases Nat.lt_or_ge n (2 ^ 53) with h53 | h53
  · have hj : (j * 2 ^ 52 + n) / 2 ^ 52 - 1 = j := by omega
    rw [hj, Nat.add_sub_cancel_left]
  · have hn' : n = 2 ^ 53 := by omega
    subst hn'
    have hj : (j * 2 ^ 52 + 2 ^ 53) / 2 ^ 52 - 1 = j + 1 := by omega
    have hk : j * 2 ^ 52 + 2 ^ 53 - (j + 1) * 2 ^ 52 = 2 ^ 52 := by omega
    have he : ((j + 1 : Nat) : Int) - 1074 = (j - 1074) + 1 := by omega
    rw [hj, hk, he, zpow_add_one₀ (by norm_num)]
    push_cast
    ring

/-- The next pattern is one unit of the last place further on. -/
theorem magValue_strictMono : StrictMono magValue := by
  refine strictMono_nat_of_lt_succ fun k => ?_
  obtain ⟨j, n, rfl, hn, hf⟩ : ∃ j n, k = j * 2 ^ 52 + n ∧ n < 2 ^ 53 ∧ (j = 0 ∨ 2 ^ 52 ≤ n) :=
    ⟨k / 2 ^ 52 - 1, k - (k / 2 ^ 52 - 1) * 2 ^ 52, by omega, by omega, by omega⟩
  rw [Nat.add_assoc, magValue_eq (by omega) hf, magValue_eq (by omega) (by omega)]
  have hu : (0 : Rat) < 2 ^ (j - 1074 : Int) := by positivity
  push_cast
  linarith

@[simp] theorem magValue_zero : magValue 0 = 0 := by simp [magValue]

/-- The value at a place of the order of the binary64 numbers. -/
def keyValue (k : Int) : Rat := magValue k.toNat - magValue (-k).toNat

theorem keyValue_strictMono : StrictMono keyValue := by
  intro a b hab
  have hpos : magValue a.toNat ≤ magValue b.toNat := magValue_strictMono.monotone (by omega)
  have hneg : magValue (-b).toNat ≤ magValue (-a).toNat := magValue_strictMono.monotone (by omega)
  unfold keyValue
  rcases Int.lt_or_le 0 b with hb | hb
  · have := magValue_strictMono (show a.toNat < b.toNat by omega)
    linarith
  · have := magValue_strictMono (show (-b).toNat < (-a).toNat by omega)
    linarith

/-- A finite number is the value at its place. -/
theorem eq_keyValue_orderKey {a : Num64} {x : Rat} (h : toRat a = some x) : x = keyValue (orderKey a) := by
  obtain ⟨m, e, -, hx, hm, he, hf, hmag⟩ := toRat_eq_some h
  have hv : magValue (magField a) = m * 2 ^ e := by
    rw [hmag, magValue_eq hm.le (by omega), Int.toNat_of_nonneg (by omega), Int.add_sub_cancel]
  rw [hx, orderKey, keyValue]
  cases signBit a <;> simp [signed, hv]

theorem isNaN_of_toRat {a : Num64} {x : Rat} (h : toRat a = some x) : isNaN a = false := by
  have hfin : isFinite a = true := toRat_ne_none_iff.1 (by simp [h])
  simp only [isFinite, decide_eq_true_eq] at hfin
  simp [isNaN, hfin]

section
variable {a b : Num64} {x y : Rat} (ha : toRat a = some x) (hb : toRat b = some y)
include ha hb

theorem flt_iff : flt a b = true ↔ x < y := by
  rw [eq_keyValue_orderKey ha, eq_keyValue_orderKey hb, keyValue_strictMono.lt_iff_lt]
  simp [flt, isNaN_of_toRat ha, isNaN_of_toRat hb]

theorem fgt_iff : fgt a b = true ↔ x > y := by
  rw [eq_keyValue_orderKey ha, eq_keyValue_orderKey hb, gt_iff_lt, keyValue_strictMono.lt_iff_lt]
  simp [fgt, isNaN_of_toRat ha, isNaN_of_toRat hb]

theorem fge_iff : fge a b = true ↔ x ≥ y := by
  rw [eq_keyValue_orderKey ha, eq_keyValue_orderKey hb, ge_iff_le, keyValue_strictMono.le_iff_le]
  simp [fge, isNaN_of_toRat ha, isNaN_of_toRat hb]

end

/-- All three comparisons are false when either operand is a NaN. -/
theorem comparisons_of_nan {a b : Num64} (h : isNaN a = true ∨ isNaN b = true) :
    flt a b = false ∧ fgt a b = false ∧ fge a b = false := by
  rcases h with h | h <;> simp [flt, fgt, fge, h]

end Sys2Proof.Machine
end

section
/-! The statement of 00_scope R12 about the comparisons. -/

namespace Sys2Proof.Proofs

open Sys2Proof.Machine

/-- Settles O51: the value of a finite pattern rises strictly with its place in the order that the comparisons read. -/
theorem comparisonsAreNumeric : Obligations.ComparisonsAreNumeric :=
  ⟨fun _ _ _ _ ha hb => ⟨flt_iff ha hb, fgt_iff ha hb, fge_iff ha hb⟩, fun _ _ h => comparisons_of_nan h⟩

end Sys2Proof.Proofs
end

section
/-! SUPPORT. The small lemmas of signed magnitudes. -/

namespace Sys2Proof.Machine

@[simp] theorem signed_zero (s : Bool) : signed s 0 = 0 := by cases s <;> rfl

@[simp] theorem signed_eq_zero {s : Bool} {m : Nat} : signed s m = 0 ↔ m = 0 := by
  cases s <;> simp [signed]

theorem abs_signed (s : Bool) (m : Nat) : |signed s m| = m := by
  cases s <;> simp [signed]

theorem signed_cast (s : Bool) (m : Nat) : (signed s m : Rat) = if s then -(m : Rat) else m := by
  cases s <;> simp [signed]

theorem signed_not (s : Bool) (m : Nat) : signed (!s) m = -signed s m := by
  cases s <;> simp [signed]

theorem signed_mul (s t : Bool) (m n : Nat) : signed (s != t) (m * n) = signed s m * signed t n := by
  cases s <;> cases t <;> simp [signed]

theorem signed_natAbs (v : Int) : signed (decide (v < 0)) v.natAbs = v := by
  simp only [signed, decide_eq_true_eq]
  split <;> omega

end Sys2Proof.Machine
end

section
/-! SUPPORT. What rounding to a whole number of units of the last place does to a number `m · 2^e`: the result is off by
half a unit at most, no number of the format is nearer, and it overflows exactly from `2^1024 - 2^970` on. A number
`m · 2^e` counted in units of `2^q` is `m · 2^(e - q)`. -/

namespace Sys2Proof.Machine

/-- The numbers of 53 significant bits whose last place is not below that of the lowest binade. -/
def InFormat (w : Rat) : Prop := ∃ k f : Int, |k| < 2 ^ 53 ∧ -1074 ≤ f ∧ w = k * 2 ^ f

theorem InFormat.neg {w : Rat} (h : InFormat w) : InFormat (-w) := by
  obtain ⟨k, f, hk, hf, rfl⟩ := h
  exact ⟨-k, f, by rwa [abs_neg], hf, by push_cast; ring⟩

theorem inFormat_of_toRat {d : Num64} {w : Rat} (h : toRat d = some w) : InFormat w := by
  obtain ⟨m, e, -, hw, hm, he, -⟩ := toRat_eq_some h
  exact ⟨signed (signBit d) m, e, by rw [abs_signed]; exact_mod_cast hm, he, hw⟩

/-- `m · 2^e` counted in units of `2^q`. -/
theorem units_mul (m : Rat) (e q : Int) : m * 2 ^ (e - q) * 2 ^ q = m * 2 ^ e := by
  rw [mul_assoc, ← zpow_add₀ (by norm_num), Int.sub_add_cancel]

/-- Counted in units of a place that is not above its own last place, a number is whole. -/
theorem units_whole {q e : Int} (h : q ≤ e) : (2 : Rat) ^ (e - q) = (2 ^ (e - q).toNat : Nat) := by
  obtain ⟨d, hd⟩ : ∃ d : Nat, e - q = d := ⟨(e - q).toNat, by omega⟩
  rw [hd, Int.toNat_natCast, zpow_natCast]
  norm_num

/-- `roundShift_near` in the words of the rational numbers. -/
theorem scaleTo_near (m : Nat) (e q : Int) :
    |(scaleTo m e q : Rat) - m * 2 ^ (e - q)| ≤ 1 / 2 ∧
    (|(scaleTo m e q : Rat) - m * 2 ^ (e - q)| = 1 / 2 → scaleTo m e q % 2 = 0) := by
  unfold scaleTo
  split
  · rename_i hqe
    rw [units_whole hqe, ← Nat.cast_mul, sub_self, abs_zero]
    norm_num
  · rename_i hqe
    obtain ⟨d, hd⟩ : ∃ d : Nat, q - e = d := ⟨(q - e).toNat, by omega⟩
    obtain ⟨hhi, hlo, heven⟩ := roundShift_near m d
    rw [hd, Int.toNat_natCast, show e - q = -(d : Int) by omega, zpow_neg, zpow_natCast]
    generalize roundShift m d = n at hhi hlo heven ⊢
    have hp : (0 : Rat) < 2 ^ d := by positivity
    have hhi' : 2 * ((n : Rat) * 2 ^ d) ≤ 2 * m + 2 ^ d := by exact_mod_cast hhi
    have hlo' : 2 * (m : Rat) ≤ 2 * (n * 2 ^ d) + 2 ^ d := by exact_mod_cast hlo
    have hy : (m : Rat) * (2 ^ d)⁻¹ * 2 ^ d = m := by field_simp
    generalize (m : Rat) * (2 ^ d)⁻¹ = y at hy ⊢
    refine ⟨abs_le.2 ⟨?_, ?_⟩, fun h => heven ?_⟩
    · exact le_of_mul_le_mul_right (by linarith) hp
    · exact le_of_mul_le_mul_right (by linarith) hp
    · rcases (abs_eq (by norm_num)).1 h with h | h
      · left
        have : 2 * ((n : Rat) * 2 ^ d) = 2 * m + 2 ^ d := by rw [← hy]; linear_combination 2 * 2 ^ d * h
        exact_mod_cast this
      · right
        have : 2 * (m : Rat) = 2 * (n * 2 ^ d) + 2 ^ d := by rw [← hy]; linear_combination -2 * 2 ^ d * h
        exact_mod_cast this

/-- A whole number within one half is a nearest one, and the only one unless it is off by exactly one half. -/
theorem nearest_int {n : Nat} {y : Rat} (h : |n - y| ≤ 1 / 2) (k : Int) :
    |n - y| ≤ |k - y| ∧ (|n - y| = |k - y| → k ≠ n → |n - y| = 1 / 2) := by
  by_cases hk : k = n
  · subst hk
    exact ⟨le_rfl, fun _ hne => absurd rfl hne⟩
  · have h1 : (1 : Rat) ≤ |(k : Rat) - n| := by exact_mod_cast Int.one_le_abs (sub_ne_zero.2 hk)
    have h2 := abs_sub_le (k : Rat) y n
    rw [abs_sub_comm y] at h2
    exact ⟨by linarith, fun heq _ => by linarith⟩

theorem two_zpow_le {i j : Int} (h : i ≤ j) : (2 : Rat) ^ i ≤ 2 ^ j := zpow_le_zpow_right₀ (by norm_num) h

/-- Counted in units of its rounding, a number has at most 53 bits before the point, and all 53 above the lowest
binade. -/
theorem units_bounds {m : Nat} (hm : m ≠ 0) (e : Int) :
    (m : Rat) * 2 ^ (e - ulpExp m e) < 2 ^ 53 ∧
    (ulpExp m e = -1074 ∨ 2 ^ 52 ≤ (m : Rat) * 2 ^ (e - ulpExp m e)) := by
  obtain ⟨-, hq, hle⟩ := ulpExp_bounds m e
  obtain ⟨hlo, hhi⟩ := log2_bounds hm
  generalize ulpExp m e = q at hq hle ⊢
  generalize Nat.log2 m = L at hq hle hlo hhi
  have hlo' : (2 : Rat) ^ L ≤ m := by exact_mod_cast hlo
  have hhi' : (m : Rat) < 2 ^ (L + 1) := by exact_mod_cast hhi
  have hu : (0 : Rat) < 2 ^ (e - q) := by positivity
  constructor
  · calc (m : Rat) * 2 ^ (e - q) < 2 ^ (L + 1) * 2 ^ (e - q) := by gcongr
      _ = 2 ^ (((L + 1 : Nat) : Int) + (e - q)) := by rw [zpow_add₀ (by norm_num), zpow_natCast]
      _ ≤ 2 ^ (53 : Int) := two_zpow_le (by omega)
      _ = 2 ^ 53 := by norm_num
  · refine hq.imp_right fun hq => ?_
    calc (2 : Rat) ^ 52 = 2 ^ ((L : Int) + (e - q)) := by rw [show (L : Int) + (e - q) = 52 by omega]; norm_num
      _ = 2 ^ L * 2 ^ (e - q) := by rw [zpow_add₀ (by norm_num), zpow_natCast]
      _ ≤ m * 2 ^ (e - q) := by gcongr

/-- A number with a finer last place lies below the binade of 53 bits before the point. -/
theorem units_lt_of_finer {k f q : Int} (hk : |k| < 2 ^ 53) (hfq : f < q) : (k : Rat) * 2 ^ (f - q) < 2 ^ 52 := by
  have hk' : (k : Rat) < 2 ^ 53 := by exact_mod_cast (abs_lt.1 hk).2
  calc (k : Rat) * 2 ^ (f - q) < 2 ^ 53 * 2 ^ (f - q) := by gcongr
    _ ≤ 2 ^ 53 * 2 ^ (-1 : Int) := mul_le_mul_of_nonneg_left (two_zpow_le (by omega)) (by norm_num)
    _ = 2 ^ 52 := by norm_num

/-- No number of the format is nearer to `m · 2^e` than its rounding, and one that is as near and different finds the
rounded significand even. A number with a last place of `2^q` or more is a whole number of units; one with a finer last
place lies below the binade of `m · 2^e`, whose start `2^52` is a whole number of units and nearer. -/
theorem scaleTo_nearest {m : Nat} (hm : m ≠ 0) (e : Int) {w : Rat} (hw : InFormat w) :
    |(scaleTo m e (ulpExp m e) : Rat) * 2 ^ ulpExp m e - m * 2 ^ e| ≤ |w - m * 2 ^ e| ∧
    (|(scaleTo m e (ulpExp m e) : Rat) * 2 ^ ulpExp m e - m * 2 ^ e| = |w - m * 2 ^ e| →
      w ≠ scaleTo m e (ulpExp m e) * 2 ^ ulpExp m e → scaleTo m e (ulpExp m e) % 2 = 0) := by
  obtain ⟨k, f, hk, hf, rfl⟩ := hw
  obtain ⟨-, hfull⟩ := units_bounds hm e
  obtain ⟨hnear, htie⟩ := scaleTo_near m e (ulpExp m e)
  generalize ulpExp m e = q at hfull hnear htie ⊢
  generalize scaleTo m e q = n at hnear htie ⊢
  have hu : (0 : Rat) < 2 ^ q := by positivity
  rw [← units_mul m e q, ← units_mul k f q]
  generalize (m : Rat) * 2 ^ (e - q) = y at hfull hnear htie ⊢
  have hdist (z : Rat) : |z * 2 ^ q - y * 2 ^ q| = |z - y| * 2 ^ q := by
    rw [← sub_mul, abs_mul, abs_of_pos hu]
  simp only [hdist, mul_le_mul_iff_left₀ hu, mul_left_inj' hu.ne', ne_eq]
  rcases Int.lt_or_le f q with hfq | hqf
  · have hy : 2 ^ 52 ≤ y := hfull.resolve_left (by omega)
    have hz := units_lt_of_finer hk hfq
    have hstart := (nearest_int hnear (2 ^ 52)).1
    rw [Int.cast_pow, Int.cast_ofNat, abs_of_nonpos (by linarith : (2 : Rat) ^ 52 - y ≤ 0)] at hstart
    have hlt : |(n : Rat) - y| < |(k : Rat) * 2 ^ (f - q) - y| := by
      rw [abs_of_neg (by linarith : (k : Rat) * 2 ^ (f - q) - y < 0)]
      linarith
    exact ⟨hlt.le, fun heq => absurd heq hlt.ne⟩
  · obtain ⟨z, hz⟩ : ∃ z : Int, (k : Rat) * 2 ^ (f - q) = z :=
      ⟨k * (2 ^ (f - q).toNat : Nat), by rw [units_whole hqf]; push_cast; rfl⟩
    obtain ⟨hle, heq⟩ := nearest_int hnear z
    rw [hz]
    exact ⟨hle, fun h hne => htie (heq h fun hc => hne (by rw [hc]; rfl))⟩

/-- Half a unit of the last place beyond the largest finite number. -/
theorem overflow_bound : (2 : Rat) ^ 1024 - 2 ^ 970 = (2 ^ 53 - 1 / 2) * 2 ^ (971 : Int) := by
  have h1024 : (2 : Rat) ^ 1024 = 2 ^ 54 * 2 ^ 970 := by rw [← pow_add]
  have h971 : (2 : Rat) ^ (971 : Int) = 2 * 2 ^ 970 := by
    rw [show (971 : Int) = (970 : Nat) + 1 from rfl, zpow_add_one₀ (by norm_num), zpow_natCast, mul_comm]
  rw [h1024, h971]
  generalize (2 : Rat) ^ 970 = u
  ring

/-- A number rounds to less than `2^53` units exactly up to half a unit below `2^53`: at that half the odd `2^53 - 1` and
the even `2^53` tie. -/
theorem lt_two_pow_53_iff {n : Nat} {y : Rat} (hnear : |n - y| ≤ 1 / 2) (htie : |n - y| = 1 / 2 → n % 2 = 0) :
    n < 2 ^ 53 ↔ y < 2 ^ 53 - 1 / 2 := by
  obtain ⟨hlo, hhi⟩ := abs_le.1 hnear
  constructor
  · intro hn
    have hn1 : (n : Rat) + 1 ≤ 2 ^ 53 := by exact_mod_cast hn
    refine lt_of_le_of_ne (by linarith) fun hy => ?_
    have hmax : (n : Rat) + 1 = 2 ^ 53 := by linarith
    have heven := htie (by rw [show (n : Rat) - y = -(1 / 2) by linarith]; norm_num)
    have hodd : n + 1 = 2 ^ 53 := by exact_mod_cast hmax
    omega
  · intro hy
    have hn : (n : Rat) < 2 ^ 53 := by linarith
    exact_mod_cast hn

/-- The rounding stays below the infinity exactly below the overflow bound. -/
theorem lt_infMag_iff {m : Nat} (hm : m ≠ 0) (e : Int) :
    (ulpExp m e + 1074).toNat * 2 ^ 52 + scaleTo m e (ulpExp m e) < infMag ↔
      (m : Rat) * 2 ^ e < 2 ^ 1024 - 2 ^ 970 := by
  obtain ⟨hq, -, -⟩ := ulpExp_bounds m e
  obtain ⟨h53, h52⟩ := scaleTo_bounds hm e
  obtain ⟨hy53, hy52⟩ := units_bounds hm e
  obtain ⟨hnear, htie⟩ := scaleTo_near m e (ulpExp m e)
  rw [overflow_bound, ← units_mul m e (ulpExp m e)]
  generalize ulpExp m e = q at *
  generalize scaleTo m e q = n at *
  generalize (m : Rat) * 2 ^ (e - q) = y at *
  unfold infMag
  rcases lt_trichotomy q 971 with hlt | rfl | hgt
  · refine iff_of_true (by omega) ?_
    calc y * 2 ^ q < 2 ^ 53 * 2 ^ q := by gcongr
      _ ≤ 2 ^ 53 * 2 ^ (970 : Int) := mul_le_mul_of_nonneg_left (two_zpow_le (by omega)) (by norm_num)
      _ = 2 ^ 52 * 2 ^ (971 : Int) := by rw [show (971 : Int) = 970 + 1 from rfl, zpow_add_one₀ (by norm_num)]; ring
      _ ≤ (2 ^ 53 - 1 / 2) * 2 ^ (971 : Int) := by gcongr; norm_num
  · rw [mul_lt_mul_iff_left₀ (by positivity), ← lt_two_pow_53_iff hnear htie]
    omega
  · refine iff_of_false (by omega) (not_lt.2 ?_)
    have hy : 2 ^ 52 ≤ y := hy52.resolve_left (by omega)
    calc (2 ^ 53 - 1 / 2) * (2 : Rat) ^ (971 : Int) ≤ 2 ^ 52 * 2 ^ ((971 : Int) + 1) := by
          rw [zpow_add_one₀ (by norm_num), mul_comm (2 ^ (971 : Int)) (2 : Rat), ← mul_assoc]
          gcongr
          norm_num
      _ ≤ y * 2 ^ q := mul_le_mul hy (two_zpow_le (by omega)) (by positivity) (by linarith)

end Sys2Proof.Machine
end

section
/-! SUPPORT. The correct rounding of `roundPack`, and from it that of the sum, the difference and the product. -/

namespace Sys2Proof.Machine

/-- `r` is the binary64 number that `x` rounds to, to nearest, ties to even (00_scope R12, log 1). The sign of an exact
zero is left open. -/
structure RoundsTo (r : Num64) (x : Rat) : Prop where
  nearest : |x| < 2 ^ 1024 - 2 ^ 970 → ∃ v, toRat r = some v ∧ ∀ (d : Num64) (w : Rat), toRat d = some w →
    |v - x| ≤ |w - x| ∧ (|v - x| = |w - x| → w ≠ v → fracField r % 2 = 0)
  overflow : 2 ^ 1024 - 2 ^ 970 ≤ |x| → r = ofMag (decide (x < 0)) infMag
  sign : x ≠ 0 → signBit r = decide (x < 0)

/-- Either zero is the number zero. -/
theorem roundsTo_zero (neg : Bool) : RoundsTo (ofMag neg 0) 0 where
  nearest _ := by
    obtain ⟨-, -, -, hfrac⟩ := ofMag_fields neg (show 0 < 2 ^ 63 by omega)
    exact ⟨0, toRat_zero neg, fun d w _ => ⟨by simp, fun _ _ => by simp [hfrac]⟩⟩
  overflow h := by
    rw [abs_zero, overflow_bound] at h
    exact absurd h (not_le.2 (mul_pos (by norm_num) (by positivity)))
  sign h := absurd rfl h

/-- `scaleTo_nearest` for either sign. A negative number is the positive case seen from the other side of zero. -/
theorem signed_scaleTo_nearest {m : Nat} (hm : m ≠ 0) (neg : Bool) (e : Int) {w : Rat} (hw : InFormat w) :
    |(signed neg (scaleTo m e (ulpExp m e)) : Rat) * 2 ^ ulpExp m e - (signed neg m : Rat) * 2 ^ e| ≤
      |w - (signed neg m : Rat) * 2 ^ e| ∧
    (|(signed neg (scaleTo m e (ulpExp m e)) : Rat) * 2 ^ ulpExp m e - (signed neg m : Rat) * 2 ^ e| =
        |w - (signed neg m : Rat) * 2 ^ e| →
      w ≠ (signed neg (scaleTo m e (ulpExp m e)) : Rat) * 2 ^ ulpExp m e → scaleTo m e (ulpExp m e) % 2 = 0) := by
  cases neg with
  | false =>
    simp only [signed_cast, Bool.false_eq_true, if_false]
    exact scaleTo_nearest hm e hw
  | true =>
    have hflip (a b : Rat) : |a - -b| = |-a - b| := by rw [← abs_neg (a - -b), neg_sub', neg_neg]
    simp only [signed_cast, if_true, neg_mul, hflip, neg_neg]
    obtain ⟨hle, htie⟩ := scaleTo_nearest hm e hw.neg
    exact ⟨hle, fun h hne => htie h fun hc => hne (neg_eq_iff_eq_neg.1 hc)⟩

theorem abs_signed_mul_zpow (neg : Bool) (m : Nat) (e : Int) : |(signed neg m : Rat) * 2 ^ e| = m * 2 ^ e := by
  rw [abs_mul, abs_of_pos (by positivity : (0 : Rat) < 2 ^ e), ← Int.cast_abs, abs_signed, Int.cast_natCast]

theorem signed_mul_zpow_neg {m : Nat} (hm : m ≠ 0) (neg : Bool) (e : Int) :
    decide ((signed neg m : Rat) * 2 ^ e < 0) = neg := by
  have hpos : (0 : Rat) < m * 2 ^ e := by positivity
  cases neg
  · simpa [signed_cast] using hpos.le
  · simpa [signed_cast] using hpos

/-- `roundPack` rounds correctly: of its two answers, the infinity comes exactly from the overflow bound on, and the
units that `scaleTo` gives are the nearest. -/
theorem roundPack_roundsTo (neg : Bool) (m : Nat) (e : Int) :
    RoundsTo (roundPack neg m e) ((signed neg m : Rat) * 2 ^ e) := by
  by_cases hm : m = 0
  · simpa [hm, roundPack] using roundsTo_zero neg
  have hneg := signed_mul_zpow_neg hm neg e
  have habs := abs_signed_mul_zpow neg m e
  rcases roundPack_cases hm neg e with ⟨hr, hge⟩ | ⟨hr, hlt, hv⟩
  · obtain ⟨hsign, -⟩ := ofMag_fields neg (show infMag < 2 ^ 63 by norm_num [infMag])
    have hbound := not_lt.1 (mt (lt_infMag_iff hm e).2 (not_lt.2 hge))
    exact ⟨fun h => absurd h (not_lt.2 (habs ▸ hbound)), fun _ => by rw [hneg, hr], fun _ => by rw [hneg, hr, hsign]⟩
  · have h63 : (ulpExp m e + 1074).toNat * 2 ^ 52 + scaleTo m e (ulpExp m e) < 2 ^ 63 :=
      hlt.trans (by norm_num [infMag])
    obtain ⟨hsign, -, -, hfrac⟩ := ofMag_fields neg h63
    refine ⟨fun _ => ⟨_, hv, fun d w hw => ?_⟩, fun h => ?_, fun _ => by rw [hneg, hr, hsign]⟩
    · obtain ⟨hle, htie⟩ := signed_scaleTo_nearest hm neg e (inFormat_of_toRat hw)
      refine ⟨hle, fun h hne => ?_⟩
      have heven := htie h hne
      rw [hr, hfrac]
      omega
    · exact absurd ((lt_infMag_iff hm e).1 hlt) (not_lt.2 (habs ▸ h))

/-- A number counted in units of a place that is not above its own last place. -/
theorem signed_scale (s : Bool) (m : Nat) {e q : Int} (h : q ≤ e) :
    (signed s (m * 2 ^ (e - q).toNat) : Rat) * 2 ^ q = (signed s m : Rat) * 2 ^ e := by
  rw [← units_mul _ e q, units_whole h, signed_cast, signed_cast]
  cases s <;> simp

section
variable (s1 : Bool) (m1 : Nat) (e1 : Int) (s2 : Bool) (m2 : Nat) (e2 : Int)

/-- The sum that `addFin` computes of two numbers, in units of the finer last place, is exact. -/
theorem signed_add_signed : (signed s1 m1 : Rat) * 2 ^ e1 + (signed s2 m2 : Rat) * 2 ^ e2 =
    (signed s1 (m1 * 2 ^ (e1 - min e1 e2).toNat) + signed s2 (m2 * 2 ^ (e2 - min e1 e2).toNat) : Int) *
      2 ^ min e1 e2 := by
  rw [Int.cast_add, add_mul, signed_scale s1 m1 (min_le_left e1 e2), signed_scale s2 m2 (min_le_right e1 e2)]

theorem addFin_roundsTo : RoundsTo (addFin s1 m1 e1 s2 m2 e2)
    ((signed s1 m1 : Rat) * 2 ^ e1 + (signed s2 m2 : Rat) * 2 ^ e2) := by
  unfold addFin
  by_cases h1 : m1 = 0
  · by_cases h2 : m2 = 0
    · simpa [h1, h2] using roundsTo_zero (s1 && s2)
    · simpa [h1, h2] using roundPack_roundsTo s2 m2 e2
  by_cases h2 : m2 = 0
  · simpa [h1, h2] using roundPack_roundsTo s1 m1 e1
  rw [if_neg h1, if_neg h2, signed_add_signed]
  dsimp only
  generalize signed s1 _ + signed s2 _ = v
  by_cases hv : v = 0
  · simpa [hv] using roundsTo_zero false
  · rw [if_neg hv]
    simpa [signed_natAbs] using roundPack_roundsTo (decide (v < 0)) v.natAbs (min e1 e2)

/-- An exact zero sum: of two zeros, or of two numbers of opposite signs. -/
theorem addFin_of_sum_zero (h : (signed s1 m1 : Rat) * 2 ^ e1 + (signed s2 m2 : Rat) * 2 ^ e2 = 0) :
    addFin s1 m1 e1 s2 m2 e2 = ofMag (s1 && s2) 0 := by
  have hu (q : Int) : (2 : Rat) ^ q ≠ 0 := by positivity
  unfold addFin
  by_cases h1 : m1 = 0
  · have h2 : m2 = 0 := by simpa [h1, hu] using h
    simp [h1, h2]
  have h2 : m2 ≠ 0 := fun h2 => h1 (by simpa [h2, hu] using h)
  rw [signed_add_signed, mul_eq_zero, Int.cast_eq_zero, or_iff_left (hu _)] at h
  rw [if_neg h1, if_neg h2]
  dsimp only
  rw [if_pos h]
  have hpos : 0 < m1 * 2 ^ (e1 - min e1 e2).toNat := by positivity
  generalize m1 * 2 ^ (e1 - min e1 e2).toNat = n1 at h hpos
  generalize m2 * 2 ^ (e2 - min e1 e2).toNat = n2 at h
  have hboth : (s1 && s2) = false := by
    by_contra hc
    obtain ⟨rfl, rfl⟩ : s1 = true ∧ s2 = true := by simpa using hc
    simp only [signed, if_true] at h
    omega
  rw [hboth]

end

section
variable {a b : Num64} {x y : Rat} (ha : toRat a = some x) (hb : toRat b = some y)
include ha hb

/-- The sum of two finite numbers: correctly rounded, and an exact zero is `-0` only for two zeros `-0`. -/
theorem fadd_correct :
    RoundsTo (fadd a b) (x + y) ∧ (x + y = 0 → fadd a b = ofMag (signBit a && signBit b) 0) := by
  obtain ⟨m1, e1, hua, rfl, -⟩ := toRat_eq_some ha
  obtain ⟨m2, e2, hub, rfl, -⟩ := toRat_eq_some hb
  rw [fadd, hua, hub]
  exact ⟨addFin_roundsTo _ _ _ _ _ _, addFin_of_sum_zero _ _ _ _ _ _⟩

/-- The difference is the sum with the second number's sign turned. -/
theorem fsub_correct :
    RoundsTo (fsub a b) (x - y) ∧ (x - y = 0 → fsub a b = ofMag (signBit a && !signBit b) 0) := by
  obtain ⟨m1, e1, hua, rfl, -⟩ := toRat_eq_some ha
  obtain ⟨m2, e2, hub, rfl, -⟩ := toRat_eq_some hb
  rw [fsub, hua, hub, sub_eq_add_neg, ← neg_mul, ← Int.cast_neg, ← signed_not]
  exact ⟨addFin_roundsTo _ _ _ _ _ _, addFin_of_sum_zero _ _ _ _ _ _⟩

/-- The product is one rounding of the exact product of the significands. -/
theorem fmul_correct :
    RoundsTo (fmul a b) (x * y) ∧ (x * y = 0 → fmul a b = ofMag (signBit a != signBit b) 0) := by
  obtain ⟨m1, e1, hua, rfl, -⟩ := toRat_eq_some ha
  obtain ⟨m2, e2, hub, rfl, -⟩ := toRat_eq_some hb
  have hexact : (signed (signBit a) m1 : Rat) * 2 ^ e1 * ((signed (signBit b) m2 : Rat) * 2 ^ e2) =
      (signed (signBit a != signBit b) (m1 * m2) : Rat) * 2 ^ (e1 + e2) := by
    rw [signed_mul, Int.cast_mul, zpow_add₀ (by norm_num)]
    ring
  rw [fmul, hua, hub, hexact]
  refine ⟨roundPack_roundsTo _ _ _, fun h => ?_⟩
  have hm : m1 * m2 = 0 := by
    rw [mul_eq_zero, or_iff_left (by positivity : (2 : Rat) ^ (e1 + e2) ≠ 0), Int.cast_eq_zero] at h
    exact signed_eq_zero.1 h
  show roundPack _ (m1 * m2) _ = _
  rw [hm, roundPack, if_pos rfl]

end

end Sys2Proof.Machine
end

section
/-! The statement of 00_scope R12 about the arithmetic. -/

namespace Sys2Proof.Proofs

open Sys2Proof.Machine

/-- Settles O50, operation by operation: each result is the exact one correctly rounded. -/
theorem arithmeticCorrectlyRounded : Obligations.ArithmeticCorrectlyRounded := by
  intro a b x y ha hb
  obtain ⟨hadd, hadd0⟩ := fadd_correct ha hb
  obtain ⟨hsub, hsub0⟩ := fsub_correct ha hb
  obtain ⟨hmul, hmul0⟩ := fmul_correct ha hb
  refine ⟨fun p hp => ?_, hadd0, hsub0, hmul0⟩
  have hr : RoundsTo p.1 p.2 := by
    simp only [List.mem_cons, List.not_mem_nil, or_false] at hp
    obtain rfl | rfl | rfl := hp
    · exact hadd
    · exact hsub
    · exact hmul
  exact ⟨hr.nearest, hr.overflow, hr.sign⟩

end Sys2Proof.Proofs
end

section
/-! SUPPORT. What the reset values are, what `SAMPLE` writes and leaves, and which words select a reset or an `END`:
the lemmas that the statements of 10_state need. -/

namespace Sys2Proof

/-- A command word is its two fields (30_encoding R70). -/
theorem opField_append_dataField (w : CommandWord) : opField w ++ dataField w = w := by
  have h : w.toNat < 2 ^ 18 := w.isLt
  apply BitVec.eq_of_toNat_eq
  rw [BitVec.toNat_append, ← Nat.shiftLeft_add_eq_or_of_lt (dataField w).isLt]
  simp only [opField, dataField, BitVec.extractLsb_toNat, Nat.shiftLeft_eq, Nat.shiftRight_eq_div_pow]
  omega

/-- The decoder gives a command only for that command's own word (30_encoding R71 to R74). -/
theorem eq_encode_of_decode {w : CommandWord} {i : Instr} (h : decode w = .ok i) : w = encode i := by
  have hops : ∀ v : BitVec 2, v = 0b00#2 ∨ v = 0b01#2 ∨ v = 0b10#2 ∨ v = 0b11#2 := by decide
  rw [← opField_append_dataField w]
  unfold decode at h
  obtain hop | hop | hop | hop := hops (opField w)
  · obtain rfl : Instr.sample (dataField w) = i := by simpa [hop] using h
    rw [hop, encode]
  · have hdata : dataField w = 0x0000#16 := by
      by_contra hne
      simp [hop, hne] at h
    obtain rfl : Instr.reset = i := by simpa [hop, hdata] using h
    rw [hop, hdata, encode]
  · have hdata : dataField w = 0x0000#16 := by
      by_contra hne
      simp [hop, hne] at h
    obtain rfl : Instr.endStream = i := by simpa [hop, hdata] using h
    rw [hop, hdata, encode]
  · simp [hop] at h

end Sys2Proof

namespace Sys2Proof.Machine

section
variable (c : Config)

@[simp] theorem State.ofConfig_cfg : (State.ofConfig c).cfg = c := rfl
@[simp] theorem State.ofConfig_q1 : (State.ofConfig c).q1 = Lanes.fill zero := rfl
@[simp] theorem State.ofConfig_q2 : (State.ofConfig c).q2 = Lanes.fill zero := rfl
@[simp] theorem State.ofConfig_cnt : (State.ofConfig c).cnt = 0 := rfl
@[simp] theorem State.ofConfig_sidx : (State.ofConfig c).sidx = 0 := rfl
@[simp] theorem State.ofConfig_phase : (State.ofConfig c).phase = .run := rfl
@[simp] theorem State.ofConfig_energy : (State.ofConfig c).energy = none := rfl
@[simp] theorem State.ofConfig_evalid : (State.ofConfig c).evalid = false := rfl
@[simp] theorem State.ofConfig_timeline : (State.ofConfig c).timeline = [] := rfl
@[simp] theorem State.ofConfig_tracked : (State.ofConfig c).tracked = none := rfl
@[simp] theorem State.ofConfig_runlen : (State.ofConfig c).runlen = 1 := rfl
@[simp] theorem State.ofConfig_guard : (State.ofConfig c).guard = none := rfl
@[simp] theorem State.ofConfig_out : (State.ofConfig c).out = [] := rfl

end

section
variable (x : BitVec 16) (s : State)

@[simp] theorem takeSample_q2 : (takeSample x s).q2 = s.q1 := rfl
@[simp] theorem takeSample_cnt : (takeSample x s).cnt = s.cnt + 1 := rfl
@[simp] theorem takeSample_sidx : (takeSample x s).sidx = s.sidx + 1 := rfl
@[simp] theorem takeSample_phase : (takeSample x s).phase = s.phase := rfl
@[simp] theorem takeSample_energy : (takeSample x s).energy = s.energy := rfl
@[simp] theorem takeSample_evalid : (takeSample x s).evalid = s.evalid := rfl
@[simp] theorem takeSample_timeline : (takeSample x s).timeline = s.timeline := rfl
@[simp] theorem takeSample_tracked : (takeSample x s).tracked = s.tracked := rfl
@[simp] theorem takeSample_runlen : (takeSample x s).runlen = s.runlen := rfl
@[simp] theorem takeSample_guard : (takeSample x s).guard = s.guard := rfl
@[simp] theorem takeSample_out : (takeSample x s).out = s.out := rfl
@[simp] theorem takeSample_input : (takeSample x s).input = s.input := rfl

/-- The filter update of one lane (40_goertzel_bank R92). -/
@[simp] theorem takeSample_q1_get (i : Bin) : (takeSample x s).q1.get i =
    filterOut (s.cfg.coeff.get i) (s.q1.get i) (s.q2.get i) (fromInt16 x) :=
  Lanes.get_ofFn _ i

/-- The energy of one lane (40_goertzel_bank R95). -/
@[simp] theorem energies_get (i : Bin) :
    (energies s).get i = laneEnergy (s.cfg.coeff.get i) (s.q1.get i) (s.q2.get i) :=
  Lanes.get_ofFn _ i

@[simp] theorem clearBank_q1 : (clearBank s).q1 = Lanes.fill zero := rfl
@[simp] theorem clearBank_q2 : (clearBank s).q2 = Lanes.fill zero := rfl
@[simp] theorem clearBank_cnt : (clearBank s).cnt = 0 := rfl
@[simp] theorem clearBank_sidx : (clearBank s).sidx = s.sidx := rfl
@[simp] theorem clearBank_phase : (clearBank s).phase = s.phase := rfl
@[simp] theorem clearBank_energy : (clearBank s).energy = s.energy := rfl
@[simp] theorem clearBank_evalid : (clearBank s).evalid = s.evalid := rfl
@[simp] theorem clearBank_timeline : (clearBank s).timeline = s.timeline := rfl
@[simp] theorem clearBank_tracked : (clearBank s).tracked = s.tracked := rfl
@[simp] theorem clearBank_runlen : (clearBank s).runlen = s.runlen := rfl
@[simp] theorem clearBank_guard : (clearBank s).guard = s.guard := rfl
@[simp] theorem clearBank_out : (clearBank s).out = s.out := rfl
@[simp] theorem clearBank_input : (clearBank s).input = s.input := rfl

end

section
variable {x : BitVec 16} {s t : State} (h : execSample x s = .next t)
include h

/-- What `SAMPLE` leaves in every case (10_state R20). -/
theorem execSample_frame : t.cfg = s.cfg ∧ t.phase = s.phase ∧ t.tracked = s.tracked ∧ t.runlen = s.runlen ∧
    t.guard = s.guard ∧ t.out = s.out ∧ t.input = s.input := by
  obtain ⟨-, -, ⟨-, rfl⟩ | ⟨-, -, rfl⟩ | ⟨-, -, sym, -, rfl⟩⟩ := execSample_cases h <;> simp

/-- The registers and `ENERGY` after `SAMPLE`, inside a sample block and at its boundary. -/
theorem execSample_bank :
    (s.cnt + 1 ≠ s.cfg.n →
      t.q1 = (takeSample x s).q1 ∧ t.q2 = s.q1 ∧ t.energy = s.energy ∧ t.evalid = s.evalid) ∧
    (s.cnt + 1 = s.cfg.n → t.q1 = Lanes.fill zero ∧ t.q2 = Lanes.fill zero ∧
      t.energy = some (energies (takeSample x s))) := by
  obtain ⟨-, -, ⟨hb, rfl⟩ | ⟨hb, -, rfl⟩ | ⟨hb, -, sym, -, rfl⟩⟩ := execSample_cases h <;> simp [hb]

/-- `SAMPLE` counts; only a block boundary can append, and then one entry, whose index is the new `SIDX`. -/
theorem execSample_timeline : t.sidx = s.sidx + 1 ∧ (t.timeline = s.timeline ∨
    (s.cnt + 1 = s.cfg.n ∧ ∃ sym, t.timeline = s.timeline ++ [⟨sym, s.sidx + 1⟩])) := by
  obtain ⟨-, -, ⟨-, rfl⟩ | ⟨-, -, rfl⟩ | ⟨hb, -, sym, -, rfl⟩⟩ := execSample_cases h
  · exact ⟨rfl, .inl rfl⟩
  · exact ⟨rfl, .inl rfl⟩
  · exact ⟨rfl, .inr ⟨hb, sym, rfl⟩⟩

end

/-- A command that a step runs was presented as that command's own word. -/
theorem head?_of_decode {s : State} {w : CommandWord} {rest : List HostInput} {i : Instr}
    (hi : s.input = .command w :: rest) (hd : decode w = .ok i) :
    s.input.head? = some (.command (encode i)) := by
  rw [hi, ← eq_encode_of_decode hd, List.head?_cons]

end Sys2Proof.Machine
end

section
/-! SUPPORT. The walk of `END` counted: what the collapse registers can hold after `k` entries (10_state R30 to R33,
42_temporal_decoder R135). -/

namespace Sys2Proof.Machine

/-- What `k` entries of the walk allow the collapse registers to hold. A run whose symbol has not been put out yet is
still to be counted beside `OUT`, each symbol of which took `MINC` entries. -/
structure CollapseBound (minc k : Nat) (r : Collapse) : Prop where
  guard_tracked : ∀ c, r.guard = some c → r.tracked = some c
  tracked_pos : r.tracked ≠ none → 0 < k
  runlen_le : r.runlen ≤ max 1 k
  out_le : r.out.length * minc ≤ k
  out_run_le : r.tracked ≠ none → r.guard = none → r.out.length * minc + r.runlen ≤ k

theorem collapseStart_bound (minc : Nat) : CollapseBound minc 0 collapseStart where
  guard_tracked := by simp [collapseStart]
  tracked_pos := by simp [collapseStart]
  runlen_le := by simp [collapseStart]
  out_le := by simp [collapseStart]
  out_run_le := by simp [collapseStart]

/-- One more entry keeps the bounds. A symbol is put out only where no symbol of its run was, so the whole run is
still there to pay for it. -/
theorem collapseStep_bound {minc k : Nat} {r : Collapse} (c : Symbol) (h : CollapseBound minc k r) :
    CollapseBound minc (k + 1) (collapseStep minc r c) := by
  obtain ⟨hguard, hpos, hrun, hout, hpend⟩ := h
  unfold collapseStep
  split
  · rename_i ht
    have hk : 0 < k := hpos (by simp [ht])
    split
    · rename_i hfire
      obtain ⟨hlen, hg⟩ := hfire
      have hnone : r.guard = none := by
        by_contra hne
        obtain ⟨d, hd⟩ := Option.ne_none_iff_exists'.1 hne
        exact hg (hd.trans ((hguard d hd).symm.trans ht))
      have hrunout := hpend (by simp [ht]) hnone
      have hpaid : (r.out ++ [c]).length * minc ≤ k + 1 := by
        rw [List.length_append, List.length_singleton, Nat.succ_mul]
        omega
      exact {
        guard_tracked := by simp [ht]
        tracked_pos := fun _ => Nat.succ_pos k
        runlen_le := Nat.zero_le _
        out_le := hpaid
        out_run_le := by simp }
    · exact {
        guard_tracked := hguard
        tracked_pos := fun _ => Nat.succ_pos k
        runlen_le := by dsimp only; omega
        out_le := Nat.le_succ_of_le hout
        out_run_le := fun _ hg => Nat.succ_le_succ (hpend (by simp [ht]) hg) }
  · exact {
      guard_tracked := by simp
      tracked_pos := fun _ => Nat.succ_pos k
      runlen_le := le_max_left 1 _
      out_le := Nat.le_succ_of_le hout
      out_run_le := fun _ _ => Nat.succ_le_succ hout }

theorem foldl_collapseStep_bound {minc : Nat} (cs : List Symbol) {k : Nat} {r : Collapse}
    (h : CollapseBound minc k r) : CollapseBound minc (k + cs.length) (cs.foldl (collapseStep minc) r) := by
  induction cs generalizing k r with
  | nil => exact h
  | cons c cs ih =>
    rw [List.length_cons, Nat.add_comm cs.length 1, ← Nat.add_assoc]
    exact ih (collapseStep_bound c h)

/-- The collapse registers after the whole walk. -/
theorem collapse_bound (minc : Nat) (m : Memory) : CollapseBound minc m.length (collapse minc m) := by
  rw [collapse_eq_foldl]
  simpa using foldl_collapseStep_bound (m.map Entry.sym) (collapseStart_bound minc)

end Sys2Proof.Machine
end

section
/-! SUPPORT. The invariants of 10_state R35, operation by operation. -/

namespace Sys2Proof.Safety

open Sys2Proof.Machine

theorem inv_ofConfig {c : Config} (h : admitted c = true) : Inv (State.ofConfig c) := by
  obtain ⟨-, hn, -⟩ := admitted_iff.1 h
  exact {
    cnt_lt := hn
    sidx_mod := fun _ => Nat.zero_mod _
    tlen_le := Nat.zero_le _
    idx_block := by simp
    timeline_wf := by simp
    bank_clear := fun _ _ => ⟨rfl, rfl⟩
    evalid_iff := iff_of_false Bool.false_ne_true (Nat.not_le_of_gt hn)
    energy_valid := rfl
    collapse_start := fun _ => ⟨rfl, rfl, rfl, rfl⟩
    guard_tracked := by simp
    runlen_le := le_max_left 1 _
    out_le := Nat.zero_le _
    phase_ne_idle := by simp }

/-- No invariant reads what is presented. -/
theorem Inv.putInput {s : State} (h : Inv s) (l : List HostInput) : Inv (s.putInput l) :=
  ⟨h.cnt_lt, h.sidx_mod, h.tlen_le, h.idx_block, h.timeline_wf, h.bank_clear, h.evalid_iff, h.energy_valid,
    h.collapse_start, h.guard_tracked, h.runlen_le, h.out_le, h.phase_ne_idle⟩

theorem inv_sessionReset {s : State} (h : admitted s.cfg = true) : Inv (sessionReset s) :=
  (inv_ofConfig h).putInput s.input

theorem Inv.idx_block_succ {s : State} (h : Inv s) :
    ∀ a ∈ s.timeline, 0 < a.idx ∧ a.idx % s.cfg.n = 0 ∧ a.idx ≤ s.sidx + 1 := by
  intro a ha
  obtain ⟨hpos, hmod, hle⟩ := h.idx_block a ha
  exact ⟨hpos, hmod, Nat.le_succ_of_le hle⟩

section
variable {s : State} (h : Inv s) (hr : s.phase = .run)
include h hr

theorem Inv.sidx_succ_mod (hb : s.cnt + 1 = s.cfg.n) : (s.sidx + 1) % s.cfg.n = 0 := by
  rw [← Nat.mod_add_mod, h.sidx_mod hr, hb, Nat.mod_self]

/-- A sample inside a sample block. -/
theorem Inv.insideBlock (x : BitVec 16) (hb : s.cnt + 1 ≠ s.cfg.n) (l : List Event) :
    Inv ((takeSample x s).putEvents l) := by
  have hlt : s.cnt + 1 < s.cfg.n := by have := h.cnt_lt; omega
  have hmod : (s.sidx + 1) % s.cfg.n = s.cnt + 1 := by
    rw [← Nat.mod_add_mod, h.sidx_mod hr, Nat.mod_eq_of_lt hlt]
  have hfirst : s.cfg.n ≤ s.sidx + 1 ↔ s.cfg.n ≤ s.sidx := by
    refine ⟨fun hle => ?_, Nat.le_succ_of_le⟩
    by_contra hsmall
    have hcnt := h.sidx_mod hr
    rw [Nat.mod_eq_of_lt (not_le.1 hsmall)] at hcnt
    omega
  exact {
    cnt_lt := hlt
    sidx_mod := fun _ => hmod
    tlen_le := h.tlen_le.trans (Nat.div_le_div_right (Nat.le_succ _))
    idx_block := h.idx_block_succ
    timeline_wf := h.timeline_wf
    bank_clear := by simp
    evalid_iff := h.evalid_iff.trans hfirst.symm
    energy_valid := h.energy_valid
    collapse_start := h.collapse_start
    guard_tracked := h.guard_tracked
    runlen_le := h.runlen_le
    out_le := h.out_le
    phase_ne_idle := h.phase_ne_idle }

/-- A block boundary that leaves the timeline `m`: cleared registers, the energies, and at most one entry more. -/
theorem Inv.blockBoundary (x : BitVec 16) (hb : s.cnt + 1 = s.cfg.n) (e : Lanes Num64) (m : Memory) (l : List Event)
    (hlen : m.length ≤ s.tlen + 1)
    (hidx : ∀ a ∈ m, 0 < a.idx ∧ a.idx % s.cfg.n = 0 ∧ a.idx ≤ s.sidx + 1)
    (hwf : Memory.wf s.cfg.tlCap m = true) :
    Inv ((clearBank (((takeSample x s).putEnergy e).putTimeline m)).putEvents l) := by
  have hmod := h.sidx_succ_mod hr hb
  have hdvd := Nat.dvd_of_mod_eq_zero hmod
  obtain ⟨-, hrunlen, -, hout⟩ := h.collapse_start hr
  exact {
    cnt_lt := Nat.zero_lt_of_lt h.cnt_lt
    sidx_mod := fun _ => hmod
    tlen_le := calc
      m.length ≤ s.tlen + 1 := hlen
      _ ≤ s.sidx / s.cfg.n + 1 := Nat.succ_le_succ h.tlen_le
      _ = (s.sidx + 1) / s.cfg.n := (Nat.succ_div_of_dvd hdvd).symm
    idx_block := hidx
    timeline_wf := hwf
    bank_clear := fun _ _ => ⟨rfl, rfl⟩
    evalid_iff := by simpa using Nat.le_of_dvd (Nat.succ_pos _) hdvd
    energy_valid := rfl
    collapse_start := h.collapse_start
    guard_tracked := h.guard_tracked
    runlen_le := hrunlen.trans_le (le_max_left 1 _)
    out_le := by simp [hout]
    phase_ne_idle := h.phase_ne_idle }

theorem Inv.rejectedBoundary (x : BitVec 16) (hb : s.cnt + 1 = s.cfg.n) (e : Lanes Num64) (l : List Event) :
    Inv ((clearBank ((takeSample x s).putEnergy e)).putEvents l) :=
  h.blockBoundary hr x hb e s.timeline l (Nat.le_succ _) h.idx_block_succ h.timeline_wf

/-- The entry that an accepted sample block appends has the greatest index (20_memory R52). -/
theorem Inv.acceptedBoundary (x : BitVec 16) (hb : s.cnt + 1 = s.cfg.n) (hroom : some s.tlen ≠ s.cfg.tlCap)
    (e : Lanes Num64) (sym : Symbol) (l : List Event) :
    Inv ((clearBank (((takeSample x s).putEnergy e).putTimeline
      (s.timeline ++ [⟨sym, s.sidx + 1⟩]))).putEvents l) := by
  have hlt : ∀ a ∈ s.timeline, a.idx < s.sidx + 1 := by
    intro a ha
    obtain ⟨-, -, hle⟩ := h.idx_block a ha
    exact Nat.lt_succ_of_le hle
  refine h.blockBoundary hr x hb e _ l (by simp [State.tlen_def]) (fun a ha => ?_)
    (Memory.wf_append h.timeline_wf (Memory.append_eq_some.2 ⟨hroom, rfl⟩) hlt)
  obtain ha | ha := List.mem_append.1 ha
  · exact h.idx_block_succ a ha
  · rw [List.mem_singleton.1 ha]
    exact ⟨Nat.succ_pos _, h.sidx_succ_mod hr hb, le_rfl⟩

end

/-- `END` writes the collapse registers within their bounds and leaves `RUN`. -/
theorem Inv.endStream {s : State} (h : Inv s) (hminc : 0 < s.cfg.minc) (l : List Event) :
    Inv (((s.putCollapse (collapse s.cfg.minc s.timeline)).putPhase .done).putEvents l) := by
  have hc := collapse_bound s.cfg.minc s.timeline
  exact {
    cnt_lt := h.cnt_lt
    sidx_mod := by simp
    tlen_le := h.tlen_le
    idx_block := h.idx_block
    timeline_wf := h.timeline_wf
    bank_clear := by simp
    evalid_iff := h.evalid_iff
    energy_valid := h.energy_valid
    collapse_start := by simp
    guard_tracked := hc.guard_tracked
    runlen_le := hc.runlen_le
    out_le := (Nat.le_div_iff_mul_le hminc).2 hc.out_le
    phase_ne_idle := by simp }

/-- A command keeps the invariants, whatever it is. -/
theorem Inv.exec {i : Instr} {s t : State} (h : Inv s) (he : exec i s = .next t) : Inv t := by
  cases i with
  | sample x =>
    obtain ⟨-, hr, ⟨hb, rfl⟩ | ⟨hb, -, rfl⟩ | ⟨hb, hroom, sym, -, rfl⟩⟩ := execSample_cases he
    · exact h.insideBlock hr x hb _
    · exact h.rejectedBoundary hr x hb _ _
    · exact h.acceptedBoundary hr x hb hroom _ sym _
  | reset =>
    obtain ⟨ha, rfl⟩ := execReset_cases he
    exact inv_sessionReset ha
  | endStream =>
    obtain ⟨ha, -, rfl⟩ := execEndStream_cases he
    obtain ⟨-, -, hminc, -⟩ := admitted_iff.1 ha
    exact h.endStream (Nat.zero_lt_of_lt hminc) _

end Sys2Proof.Safety
end

section
/-! The statements of 10_state. -/

namespace Sys2Proof.Proofs

open Sys2Proof.Machine Sys2Proof.Safety

/-- Settles O49, by the three things a step can do: it waits, it resets, or it runs a command, which keeps the
invariants. -/
theorem stepKeepsInvariants : Obligations.StepKeepsInvariants := by
  intro s t hs h
  obtain ⟨ha, ⟨-, rfl⟩ | ⟨rest, -, rfl⟩ | ⟨w, rest, i, -, -, he⟩⟩ := step_cases h
  · exact hs
  · exact inv_sessionReset ha
  · exact (hs.putInput rest).exec he

/-- Settles O48. -/
theorem invariantsHoldAtReset : Obligations.InvariantsHoldAtReset :=
  ⟨inv_ofConfig (by decide), fun _ hc => inv_ofConfig hc⟩

/-- Settles O20, from the frame of `SAMPLE` and the one entry that a block boundary can append. -/
theorem sampleFrame : Obligations.SampleFrame := by
  intro s t x h
  obtain ⟨hcfg, hphase, htracked, hrunlen, hguard, hout, hinput⟩ := execSample_frame h
  obtain ⟨hbank, -⟩ := execSample_bank h
  obtain ⟨-, htl⟩ := execSample_timeline h
  refine ⟨hcfg, hphase, htracked, hrunlen, hguard, hout, hinput, ?_⟩
  obtain htl | ⟨hb, sym, htl⟩ := htl
  · exact ⟨fun k _ => by rw [htl], by simp [State.tlen_def, htl],
      fun hb => ⟨htl, (hbank hb).2.2⟩⟩
  · refine ⟨fun k hk => ?_, by simp [State.tlen_def, htl], fun hb' => absurd hb hb'⟩
    rw [htl, Memory.read_append]
    exact if_neg (Nat.ne_of_lt hk)

/-- Settles O21: inside a sample block a lane's registers are its own filter update, at a boundary they are cleared
and `ENERGY` is the lane's own energy. -/
theorem lanesAreIndependent : Obligations.LanesAreIndependent := by
  intro s s' t t' x i hc hq1 hq2 hcnt hn h h'
  obtain ⟨hin, hbd⟩ := execSample_bank h
  obtain ⟨hin', hbd'⟩ := execSample_bank h'
  have hlane : (takeSample x s).q1.get i = (takeSample x s').q1.get i := by
    simp [hc, hq1, hq2]
  by_cases hb : s.cnt + 1 = s.cfg.n
  · obtain ⟨htq1, htq2, hte⟩ := hbd hb
    obtain ⟨htq1', htq2', hte'⟩ := hbd' (hcnt ▸ hn ▸ hb)
    rw [htq1, htq2, hte, htq1', htq2', hte']
    exact ⟨rfl, rfl, fun _ => by simp [hlane, hc, hq1]⟩
  · obtain ⟨htq1, htq2, -⟩ := hin hb
    obtain ⟨htq1', htq2', -⟩ := hin' (hcnt ▸ hn ▸ hb)
    rw [htq1, htq2, htq1', htq2']
    exact ⟨hlane, hq1, fun hb' => absurd hb' hb⟩

/-- Settles O45: only a block boundary and a reset write the timeline. -/
theorem timelineIsAppendOnly : Obligations.TimelineIsAppendOnly := by
  intro s t h
  obtain ⟨-, ⟨-, rfl⟩ | ⟨rest, hi, rfl⟩ | ⟨w, rest, i, hi, hd, he⟩⟩ := step_cases h
  · exact .inl rfl
  · exact .inr (.inr ⟨rfl, .inl (by rw [hi, List.head?_cons])⟩)
  · cases i with
    | sample x =>
      obtain ⟨hsidx, htl | ⟨-, sym, htl⟩⟩ := execSample_timeline he
      · exact .inl htl
      · exact .inr (.inl ⟨sym, by rw [htl, hsidx]; rfl⟩)
    | reset =>
      obtain ⟨-, rfl⟩ := execReset_cases he
      exact .inr (.inr ⟨rfl, .inr (head?_of_decode hi hd)⟩)
    | endStream =>
      obtain ⟨-, -, rfl⟩ := execEndStream_cases he
      exact .inl rfl

/-- Settles O47, by what each command requires of the phase and leaves in it. -/
theorem onlyResetLeavesDone : Obligations.OnlyResetLeavesDone := by
  intro s t h
  obtain ⟨-, ⟨-, rfl⟩ | ⟨rest, hi, rfl⟩ | ⟨w, rest, i, hi, hd, he⟩⟩ := step_cases h
  · exact ⟨fun hdone hne => absurd hdone hne, fun hne hdone => absurd hdone hne⟩
  · exact ⟨fun _ _ => .inl (by rw [hi, List.head?_cons]), fun _ hdone => by simp [sessionReset] at hdone⟩
  · have hword := head?_of_decode hi hd
    cases i with
    | sample x =>
      obtain ⟨-, hrun, -⟩ := execSample_cases he
      obtain ⟨-, hphase, -⟩ := execSample_frame he
      rw [State.putInput_phase] at hrun hphase
      rw [hphase]
      exact ⟨fun hdone hne => absurd hdone hne, fun hne hdone => absurd hdone hne⟩
    | reset =>
      obtain ⟨-, rfl⟩ := execReset_cases he
      exact ⟨fun _ _ => .inr hword, fun _ hdone => by simp [sessionReset] at hdone⟩
    | endStream =>
      obtain ⟨-, hrun, rfl⟩ := execEndStream_cases he
      exact ⟨fun _ hne => absurd rfl hne, fun _ _ => ⟨hrun, hword⟩⟩

/-- Settles O41: `RESET` completes with the state of `sessionReset`, which is that of R36. -/
theorem resetLeaves : Obligations.ResetLeaves := by
  intro s ha
  refine ⟨sessionReset s, requireAdmitted_of ha, rfl, ?_⟩
  simp [sessionReset, State.tlen_def, zero]

/-- Settles O42. -/
theorem resetStateValues : Obligations.ResetStateValues := by
  unfold Obligations.ResetStateValues State.reset
  simp [zero]

end Sys2Proof.Proofs
end

section
/-! The statements of 20_memory R52 and R53 about `TlAppend`. -/

namespace Sys2Proof.Proofs

open Sys2Proof.Machine

/-- Settles O19, by the outcomes of `SAMPLE`: its one fault needs a finite `TL_CAP`, and its refusals need a
configuration that is not admitted or a phase other than `RUN`. -/
theorem sampleCompletes : Obligations.SampleCompletes := by
  intro s x ha hrun hcap
  cases h : exec (.sample x) s with
  | next t =>
    obtain ⟨-, hphase, -⟩ := execSample_frame h
    obtain ⟨hsidx, -⟩ := execSample_timeline h
    exact ⟨t, rfl, hphase.trans hrun, hsidx⟩
  | fault f =>
    obtain ⟨-, hfull⟩ := execSample_fault h
    simp [hcap] at hfull
  | refused r =>
    obtain ⟨hn, -⟩ | ⟨-, -, hp, -⟩ := exec_refused h
    · simp [ha] at hn
    · exact absurd hrun hp

/-- Settles O44, from what `TlAppend` answers and what `TlRead` reads after it. -/
theorem tlAppendRule : Obligations.TlAppendRule := by
  intro cap m e
  refine ⟨Memory.append_eq_none.2, fun hroom => ?_, fun hcap hnone => ?_⟩
  · refine ⟨m ++ [e], Memory.append_eq_some.2 ⟨hroom, rfl⟩, List.length_append, ?_, fun k hk => ?_⟩
    · rw [Memory.read_append, if_pos rfl]
    · rw [Memory.read_append, if_neg (Nat.ne_of_lt hk)]
  · have hfull := Memory.append_eq_none.1 hnone
    simp [hcap] at hfull

end Sys2Proof.Proofs
end

section
/-! SUPPORT. Command words and entry words read bit field by bit field, and the word that a step takes: the lemmas that
the statements of 30_encoding need besides `eq_encode_of_decode`. -/

namespace Sys2Proof

section
variable (op : BitVec 2) (data : BitVec 16)

@[simp] theorem opField_append : opField (op ++ data) = op :=
  BitVec.extractLsb'_append_eq_left

@[simp] theorem dataField_append : dataField (op ++ data) = data :=
  BitVec.extractLsb'_append_eq_right

end

/-- The decoder reads back the command a word was made of. -/
theorem decode_encode (i : Instr) : decode (encode i) = .ok i := by
  cases i with
  | sample x => simp [encode, decode]
  | reset => rfl
  | endStream => rfl

/-- The operand of `SAMPLE` is the whole word: its `op` is zero. -/
@[simp] theorem encode_sample_toNat (x : BitVec 16) : (encode (.sample x)).toNat = x.toNat := by
  rw [encode, BitVec.toNat_append, BitVec.toNat_ofNat, Nat.zero_mod, Nat.zero_shiftLeft, Nat.zero_or]

/-- A word below `0x10000` is the word of `SAMPLE` with that operand (30_encoding R71). -/
theorem encode_sample_of_lt {w : CommandWord} (h : w.toNat < 0x10000) :
    encode (.sample (BitVec.ofNat 16 w.toNat)) = w := by
  apply BitVec.eq_of_toNat_eq
  rw [encode_sample_toNat, BitVec.toNat_ofNat, Nat.mod_eq_of_lt h]

theorem decode_of_lt {w : CommandWord} (h : w.toNat < 0x10000) :
    decode w = .ok (.sample (BitVec.ofNat 16 w.toNat)) := by
  rw [← decode_encode, encode_sample_of_lt h]

/-- A word that decodes is below `0x10000`, or one of the two words without an operand. -/
theorem toNat_of_decode {w : CommandWord} {i : Instr} (h : decode w = .ok i) :
    (w.toNat < 0x10000 ∧ ∃ x, i = .sample x) ∨ (w.toNat = 0x10000 ∧ i = .reset) ∨
      (w.toNat = 0x20000 ∧ i = .endStream) := by
  rw [eq_encode_of_decode h]
  cases i with
  | sample x => exact .inl ⟨by rw [encode_sample_toNat]; exact x.isLt, x, rfl⟩
  | reset => exact .inr (.inl ⟨rfl, rfl⟩)
  | endStream => exact .inr (.inr ⟨rfl, rfl⟩)

/-- A table row decodes to what its command word decodes to. -/
theorem decodeTableWord_eq_some {nbits w : Nat} {i : Instr} :
    decodeTableWord nbits w = some i ↔ ∃ c, tableWord nbits w = some c ∧ decode c = .ok i := by
  unfold decodeTableWord
  cases tableWord nbits w with
  | none => simp
  | some c => cases hd : decode c <;> simp [hd]

end Sys2Proof

namespace Sys2Proof.Machine

theorem Entry.word_sym (e : Entry) : e.word.extractLsb 3 0 = e.sym :=
  BitVec.extractLsb'_append_eq_right

theorem Entry.word_idx (e : Entry) : e.word.extractLsb 67 4 = BitVec.ofNat 64 e.idx :=
  BitVec.extractLsb'_append_eq_left

/-- The two's complement reading of 16 bits. -/
theorem sampleInt_ofNat {n : Nat} (h : n < 0x10000) :
    sampleInt (BitVec.ofNat 16 n) = if n < 0x8000 then (n : Int) else n - 65536 := by
  rw [sampleInt, BitVec.toInt_eq_toNat_cond, BitVec.toNat_ofNat, Nat.mod_eq_of_lt h]
  split <;> split <;> omega

/-- An int16 integer is the operand that its 16 bits stand for (30_encoding R75). -/
theorem sampleInt_ofInt {v : Int} (h : -32768 ≤ v ∧ v ≤ 32767) : sampleInt (BitVec.ofInt 16 v) = v :=
  BitVec.toInt_ofInt_eq_self (by decide) (by omega) (by omega)

/-- An int16 has at most 16 significant bits, so no rounding takes place (00_scope R12). -/
theorem toRat_fromInt16 (x : BitVec 16) : toRat (fromInt16 x) = some (sampleInt x : Rat) := by
  have hlo := BitVec.le_toInt x
  have hhi := BitVec.toInt_lt (x := x)
  have hsmall : (sampleInt x).natAbs < 2 ^ 53 := by unfold sampleInt; omega
  rw [fromInt16, toRat_roundPack_exact _ hsmall (by omega) (by omega), signed_natAbs, zpow_zero, mul_one]

end Sys2Proof.Machine
end

section
/-! The statements of 30_encoding. -/

namespace Sys2Proof.Proofs

open Sys2Proof.Machine

/-- Settles O1. -/
theorem decodeEncodeRoundTrip : Obligations.DecodeEncodeRoundTrip :=
  fun i _ => decode_encode i

/-- Settles O2. -/
theorem encodeDecodeUnique : Obligations.EncodeDecodeUnique :=
  fun _ _ h => (eq_encode_of_decode h).symm

/-- Settles O3: the first three clauses read the word of a command back; a reserved word is the word of none. -/
theorem reservedWordsRefused : Obligations.ReservedWordsRefused := by
  intro w
  refine ⟨decode_of_lt, fun h => ?_, fun h => ?_, fun h => ?_⟩
  · obtain rfl : w = encode .reset := BitVec.eq_of_toNat_eq h
    exact decode_encode _
  · obtain rfl : w = encode .endStream := BitVec.eq_of_toNat_eq h
    exact decode_encode _
  · obtain ⟨e, he⟩ : ∃ e, decode w = .error e := by
      cases hd : decode w with
      | error e => exact ⟨e, rfl⟩
      | ok i => obtain ⟨hw, -⟩ | ⟨hw, -⟩ | ⟨hw, -⟩ := toNat_of_decode hd <;> omega
    refine ⟨⟨e, he⟩, fun s rest ha hi => ?_⟩
    rw [step_command ha hi, present_of_error _ he]

/-- Settles O4: the operand is read and converted exactly, and the filter update of `takeSample` is what the registers,
or at a boundary the energies, are computed from. -/
theorem sampleOperandIsTwosComplement : Obligations.SampleOperandIsTwosComplement := by
  intro w
  refine ⟨fun hw => ⟨_, decode_of_lt hw, sampleInt_ofNat hw, toRat_fromInt16 _, fun s t q1' h hq1 => ?_⟩,
    fun hw i hd => ?_⟩
  · obtain ⟨hin, hbd⟩ := execSample_bank h
    have hbank : q1' = (takeSample (BitVec.ofNat 16 w.toNat) s).q1 :=
      Lanes.ext_get fun i => by rw [hq1, takeSample_q1_get, filterOut]
    refine ⟨fun hb => ?_, fun hb => ?_⟩
    · obtain ⟨htq1, -⟩ := hin hb
      rw [htq1, hbank]
    · obtain ⟨-, -, henergy⟩ := hbd hb
      exact ⟨_, henergy, fun i => by rw [energies_get, laneEnergy, takeSample_cfg, takeSample_q2, hbank]⟩
  · obtain ⟨hlt, -⟩ | ⟨-, hi⟩ | ⟨-, hi⟩ := toNat_of_decode hd
    · omega
    · exact .inl hi
    · exact .inr hi

/-- Settles O43, by what each command can do when it completes. -/
theorem eventsOfEachCommand : Obligations.EventsOfEachCommand := by
  refine ⟨fun s t x h => ?_, fun s t h => ?_, fun s t h => ?_⟩
  · obtain ⟨-, -, ⟨hb, rfl⟩ | ⟨hb, -, rfl⟩ | ⟨hb, -, sym, -, rfl⟩⟩ := execSample_cases h
    · exact ⟨fun _ => rfl, fun hb' => absurd hb' hb⟩
    · exact ⟨fun hb' => absurd hb hb', fun _ => ⟨_, rfl, .inl ⟨rfl, rfl⟩⟩⟩
    · exact ⟨fun hb' => absurd hb hb', fun _ => ⟨_, rfl, .inr ⟨sym, rfl, rfl⟩⟩⟩
  · obtain ⟨-, rfl⟩ := execReset_cases h
    rfl
  · obtain ⟨-, -, rfl⟩ := execEndStream_cases h
    rfl

/-- Settles O5, by decoding the nine words. -/
theorem wordsOfTheSpecDecode : Obligations.WordsOfTheSpecDecode := by
  unfold Obligations.WordsOfTheSpecDecode
  decide

/-- Settles O6, by the sixteen values. -/
theorem symbolCharacters : Obligations.SymbolCharacters := by
  unfold Obligations.SymbolCharacters
  decide

/-- Settles O7. -/
theorem entryWordLayout : Obligations.EntryWordLayout :=
  fun e => ⟨e.word_sym, by rw [e.word_idx, BitVec.toNat_ofNat]⟩

/-- Settles O8: the samples are the 16 bits of the integers, each of which reads back as it was. -/
theorem decodeScriptExpansion : Obligations.DecodeScriptExpansion := by
  intro cfg l hl
  have hwf : (ScriptLine.decode l).wellFormed = true := by simpa [ScriptLine.wellFormed, inInt16] using hl
  refine ⟨l.map (BitVec.ofInt 16), by simp [expand, hwf, expandSamples], ?_⟩
  rw [List.map_map]
  exact (List.map_congr_left fun v hv => sampleInt_ofInt (hl v hv)).trans (List.map_id l)

/-- Settles O10: what `withFetchWord` places is the head of what is presented, and a step decodes and runs that. -/
theorem placedWordRunsNext : Obligations.PlacedWordRunsNext := by
  intro s w i ha _ hd
  obtain ⟨c, hc, hi⟩ := decodeTableWord_eq_some.1 hd
  have hplaced : s.withFetchWord 24 w = placeCommand c s := by simp [State.withFetchWord, hc]
  rw [hplaced, step_command (s := placeCommand c s) ha rfl, present_of_ok _ hi]
  rfl

/-- Settles O52: both resets are `sessionReset`, which returns nothing and puts back what is presented. -/
theorem resetLeavesModelFields : Obligations.ResetLeavesModelFields :=
  fun s ha => ⟨sessionReset s, requireAdmitted_of ha, rfl, rfl, rfl⟩

end Sys2Proof.Proofs
end

section
/-! SUPPORT. What `SAMPLE` answers in each of its completing cases, and the arithmetic of a clear bank: the lemmas that
the statements of 40_goertzel_bank need. -/

namespace Sys2Proof.Machine

section
variable {s : State} {x : BitVec 16} (ha : admitted s.cfg = true) (hr : s.phase = .run)
include ha hr

/-- `SAMPLE` inside a sample block (40_goertzel_bank R91 to R93). -/
theorem exec_sample_insideBlock (hb : s.cnt + 1 ≠ s.cfg.n) :
    exec (.sample x) s = .next ((takeSample x s).putEvents []) := by
  rw [exec_sample, execSample, requireAdmitted_of ha, requireRun_of hr]
  exact if_neg hb

/-- `SAMPLE` at the end of a sample block hands over to the boundary (40_goertzel_bank R94). -/
theorem exec_sample_atBoundary (hb : s.cnt + 1 = s.cfg.n) :
    exec (.sample x) s = boundary (takeSample x s) := by
  rw [exec_sample, execSample, requireAdmitted_of ha, requireRun_of hr]
  exact if_pos hb

end

/-- A boundary whose energies the Classifier rejects (40_goertzel_bank R96). -/
theorem boundary_of_rejected {s : State} (hc : classify s.cfg (energies s) = none) :
    boundary s = .next ((clearBank (s.putEnergy (energies s))).putEvents [.energy (energies s)]) := by
  simp only [boundary, hc]

/-- A boundary whose energies the Classifier accepts, with room in the timeline (41_classifier R118, 20_memory R52). -/
theorem boundary_of_accepted {s : State} {sym : Symbol} (hc : classify s.cfg (energies s) = some sym)
    (hroom : some s.tlen ≠ s.cfg.tlCap) :
    boundary s = .next ((clearBank ((s.putEnergy (energies s)).putTimeline (s.timeline ++ [⟨sym, s.sidx⟩]))).putEvents
      [.energy (energies s), .detect sym s.sidx]) := by
  have happ : Memory.append s.cfg.tlCap s.timeline ⟨sym, s.sidx⟩ = some (s.timeline ++ [⟨sym, s.sidx⟩]) :=
    Memory.append_eq_some.2 ⟨hroom, rfl⟩
  simp only [boundary, hc, happ]

/-- The boundary of a sample block leaves `CNT` at 0, whatever the Classifier says (40_goertzel_bank R96). -/
theorem execSample_cnt_of_boundary {s t : State} {x : BitVec 16} (h : execSample x s = .next t)
    (hb : s.cnt + 1 = s.cfg.n) : t.cnt = 0 := by
  obtain ⟨-, -, ⟨hne, -⟩ | ⟨-, -, rfl⟩ | ⟨-, -, sym, -, rfl⟩⟩ := execSample_cases h
  · exact absurd hb hne
  · rfl
  · rfl

/-- The bank that R92 describes lane by lane is the one of `takeSample`. -/
theorem eq_takeSample_q1 {s : State} {x : BitVec 16} {q1' : Lanes Num64}
    (h : ∀ i, q1'.get i = fadd (fsub (fmul (s.cfg.coeff.get i) (s.q1.get i)) (s.q2.get i)) (fromInt16 x)) :
    q1' = (takeSample x s).q1 :=
  Lanes.ext_get fun i => by rw [h, takeSample_q1_get, filterOut]

/-- The energies that R95 describes lane by lane are those of `energies`. -/
theorem eq_energies_takeSample {s : State} {x : BitVec 16} {q1' e : Lanes Num64}
    (hq : q1' = (takeSample x s).q1)
    (h : ∀ i, e.get i = fsub (fadd (fmul (q1'.get i) (q1'.get i)) (fmul (s.q1.get i) (s.q1.get i)))
      (fmul (fmul (s.cfg.coeff.get i) (q1'.get i)) (s.q1.get i))) :
    e = energies (takeSample x s) :=
  Lanes.ext_get fun i => by rw [h, hq, energies_get, laneEnergy, takeSample_cfg, takeSample_q2]

/-- A pattern other than `-0` is `+0` or has a nonzero magnitude. -/
theorem eq_pos_zero_or_magField_ne_zero {a : Num64} (hne : a ≠ ofMag true 0) :
    a = ofMag false 0 ∨ magField a ≠ 0 := by
  refine or_iff_not_imp_right.2 fun h0 => ?_
  have heq := ofMag_signBit_magField a
  rw [not_not.1 h0] at heq
  cases hs : signBit a with
  | false => rw [← heq, hs]
  | true => exact absurd (by rw [← heq, hs]) hne

section
variable {a : Num64} (ha : isFinite a = true) (hne : a ≠ ofMag true 0)
include ha hne

/-- A zero of either sign is neutral on the left of a sum with anything finite but `-0`. -/
theorem fadd_zero_left_of_ne_neg_zero (s : Bool) : fadd (ofMag s 0) a = a := by
  obtain rfl | h0 := eq_pos_zero_or_magField_ne_zero hne
  · rw [fadd_zero_zero, Bool.and_false]
  · exact fadd_zero_left s ha h0

/-- A zero of either sign is neutral on the right of a sum with anything finite but `-0`. -/
theorem fadd_zero_right_of_ne_neg_zero (s : Bool) : fadd a (ofMag s 0) = a := by
  obtain rfl | h0 := eq_pos_zero_or_magField_ne_zero hne
  · rw [fadd_zero_zero, Bool.false_and]
  · exact fadd_zero_right s ha h0

/-- Taking a zero of either sign from anything finite but `-0` leaves it as it is. -/
theorem fsub_zero_right_of_ne_neg_zero (s : Bool) : fsub a (ofMag s 0) = a := by
  obtain rfl | h0 := eq_pos_zero_or_magField_ne_zero hne
  · rw [fsub_zero_zero, Bool.false_and]
  · exact fsub_zero_right s ha h0

end

/-- The square of a finite number is not `-0`. -/
theorem fmul_self_ne_neg_zero {a : Num64} (ha : isFinite a = true) : fmul a a ≠ ofMag true 0 := by
  obtain ⟨v, hv⟩ := Option.ne_none_iff_exists'.1 (toRat_ne_none_iff.2 ha)
  obtain ⟨hround, hzero⟩ := fmul_correct hv hv
  by_cases h0 : v * v = 0
  · rw [hzero h0, bne_self_eq_false]
    decide
  · have hsign := hround.sign h0
    rw [decide_eq_false (not_lt.2 (mul_self_nonneg v))] at hsign
    intro h
    rw [h, (ofMag_fields true (by omega)).1] at hsign
    cases hsign

/-- A product below the overflow bound is finite. -/
theorem isFinite_fmul {a b : Num64} {v w : Rat} (ha : toRat a = some v) (hb : toRat b = some w)
    (h : |v * w| < 2 ^ 1024 - 2 ^ 970) : isFinite (fmul a b) = true := by
  obtain ⟨hround, -⟩ := fmul_correct ha hb
  obtain ⟨r, hr, -⟩ := hround.nearest h
  exact toRat_ne_none_iff.1 (by simp [hr])

theorem isFinite_fromInt16 (x : BitVec 16) : isFinite (fromInt16 x) = true :=
  toRat_ne_none_iff.1 (by simp [toRat_fromInt16])

/-- The sample 0 is converted to `+0` (00_scope R12). -/
theorem fromInt16_of_sampleInt_zero {x : BitVec 16} (h : sampleInt x = 0) : fromInt16 x = zero := by
  rw [fromInt16, h]
  decide

theorem fromInt16_ne_neg_zero (x : BitVec 16) : fromInt16 x ≠ ofMag true 0 := by
  intro h
  have hval := toRat_fromInt16 x
  rw [h, toRat_zero] at hval
  have h0 : sampleInt x = 0 := by exact_mod_cast (Option.some.inj hval).symm
  rw [fromInt16_of_sampleInt_zero h0] at h
  exact absurd h (by decide)

theorem abs_sampleInt_le (x : BitVec 16) : |(sampleInt x : Rat)| ≤ 32768 := by
  have hlo := BitVec.le_toInt x
  have hhi := BitVec.toInt_lt (x := x)
  have habs : |sampleInt x| ≤ 32768 := abs_le.2 (by unfold sampleInt; omega)
  exact_mod_cast habs

/-- A product of a sample with a number no greater than the samples is far from an overflow. -/
theorem isFinite_fmul_fromInt16 {c : Num64} {y : Rat} (hc : toRat c = some y) (hy : |y| ≤ 32768) (x : BitVec 16) :
    isFinite (fmul c (fromInt16 x)) = true := by
  refine isFinite_fmul hc (toRat_fromInt16 x) ?_
  calc |y * sampleInt x| = |y| * |(sampleInt x : Rat)| := abs_mul _ _
    _ ≤ 32768 * 32768 := mul_le_mul hy (abs_sampleInt_le x) (abs_nonneg _) (by norm_num)
    _ < (2 ^ 53 - 1 / 2) * 1 := by norm_num
    _ ≤ (2 ^ 53 - 1 / 2) * 2 ^ (971 : Int) :=
        mul_le_mul_of_nonneg_left (one_le_zpow₀ (by norm_num) (by norm_num)) (by norm_num)
    _ = 2 ^ 1024 - 2 ^ 970 := overflow_bound.symm

theorem fmul_zero_zero : fmul zero zero = zero := by decide

/-- The filter update of a clear lane gives the sample exactly (40_goertzel_bank R92). The product `c·0` may be `-0`,
which the sum with the sample absorbs. -/
theorem filterOut_zero_zero {c : Num64} (hc : isFinite c = true) (x : BitVec 16) :
    filterOut c zero zero (fromInt16 x) = fromInt16 x := by
  rw [filterOut, ← ofMag_false_zero, fmul_zero_right _ hc, fsub_zero_zero]
  exact fadd_zero_left_of_ne_neg_zero (isFinite_fromInt16 x) (fromInt16_ne_neg_zero x) _

/-- With `Q2` clear the energy of a lane is the square of `Q1`, unless the square or `c·Q1` overflows
(40_goertzel_bank R94, R95). -/
theorem laneEnergy_zero_right {c a : Num64} (ha : isFinite a = true) (hsq : isFinite (fmul a a) = true)
    (hca : isFinite (fmul c a) = true) : laneEnergy c a zero = fmul a a := by
  have hne := fmul_self_ne_neg_zero ha
  rw [laneEnergy, fmul_zero_zero, ← ofMag_false_zero, fadd_zero_right_of_ne_neg_zero hsq hne,
    fmul_zero_right _ hca, fsub_zero_right_of_ne_neg_zero hsq hne]

end Sys2Proof.Machine
end

section
/-! SUPPORT. A silent sample block from its start to its boundary (40_goertzel_bank R99). -/

namespace Sys2Proof.Machine

section
variable {s : State} (ha : admitted s.cfg = true) (hq1 : s.q1 = Lanes.fill zero) (hq2 : s.q2 = Lanes.fill zero)
include ha hq1 hq2

/-- The first sample of a sample block stands in every lane (40_goertzel_bank R92). -/
theorem takeSample_q1_of_clear (x : BitVec 16) : (takeSample x s).q1 = Lanes.fill (fromInt16 x) := by
  obtain ⟨-, -, -, hfin, -⟩ := admitted_iff.1 ha
  refine Lanes.ext_get fun i => ?_
  rw [takeSample_q1_get, hq1, hq2, Lanes.get_fill, Lanes.get_fill, filterOut_zero_zero (hfin i)]

theorem takeSample_q1_of_silent : (takeSample 0#16 s).q1 = Lanes.fill zero := by
  rw [takeSample_q1_of_clear ha hq1 hq2, fromInt16_of_sampleInt_zero rfl]

end

/-- The energies of a clear bank are `0.0`, for finite coefficients (40_goertzel_bank R95). -/
theorem energies_of_clear {s : State} (ha : admitted s.cfg = true) (hq1 : s.q1 = Lanes.fill zero)
    (hq2 : s.q2 = Lanes.fill zero) : energies s = Lanes.fill zero := by
  obtain ⟨-, -, -, hfin, -⟩ := admitted_iff.1 ha
  have hzero : isFinite zero = true := by decide
  refine Lanes.ext_get fun i => ?_
  have hprod : isFinite (fmul (s.cfg.coeff.get i) zero) = true := by
    rw [← ofMag_false_zero, fmul_zero_right _ (hfin i)]
    exact isFinite_zero _
  rw [energies_get, hq1, hq2, Lanes.get_fill,
    laneEnergy_zero_right hzero (by rw [fmul_zero_zero]; exact hzero) hprod, fmul_zero_zero]

/-- Energies of `0.0` fail the energy floor (41_classifier R113). -/
theorem classify_fill_zero {c : Config} (hc : admitted c = true) : classify c (Lanes.fill zero) = none := by
  obtain ⟨-, -, -, -, -, hconst⟩ := admitted_iff.1 hc
  have hfloor : c.eFloor = eFloorValue := (of_decide_eq_true hconst).2.1
  have hbelow : fge zero eFloorValue = false := by decide
  simp [classify, floorPass, hfloor, hbelow]

/-- `t` is a block boundary `s` with a clear bank after `k` silent samples of the next sample block. -/
structure SilentAfter (k : Nat) (s t : State) : Prop where
  cfg : t.cfg = s.cfg
  phase : t.phase = .run
  cnt : t.cnt = k
  sidx : t.sidx = s.sidx + k
  q1 : t.q1 = Lanes.fill zero
  q2 : t.q2 = Lanes.fill zero
  timeline : t.timeline = s.timeline

section
variable {k : Nat} {s t : State} (ha : admitted s.cfg = true) (h : SilentAfter k s t)
include ha h

/-- A silent sample inside the sample block keeps the bank clear (40_goertzel_bank R92). -/
theorem SilentAfter.sample (hk : k + 1 < s.cfg.n) :
    ∃ u, exec (.sample 0#16) t = .next u ∧ SilentAfter (k + 1) s u := by
  obtain ⟨hcfg, hphase, hcnt, hsidx, hq1, hq2, htl⟩ := h
  have hat : admitted t.cfg = true := hcfg ▸ ha
  refine ⟨_, exec_sample_insideBlock hat hphase (by rw [hcnt, hcfg]; exact hk.ne), ?_⟩
  exact { cfg := hcfg
          phase := hphase
          cnt := by simp [hcnt]
          sidx := by simp [hsidx, Nat.add_assoc]
          q1 := takeSample_q1_of_silent hat hq1 hq2
          q2 := hq1
          timeline := htl }

/-- The silent sample that ends the sample block is a rejected boundary: its energies are `0.0`. -/
theorem SilentAfter.boundary (hk : k + 1 = s.cfg.n) :
    ∃ u, exec (.sample 0#16) t = .next u ∧ u.q1 = Lanes.fill zero ∧ u.q2 = Lanes.fill zero ∧
      u.timeline = s.timeline ∧ u.sidx = s.sidx + s.cfg.n ∧ u.cnt = 0 ∧ u.energy = some (Lanes.fill zero) ∧
      u.events = [.energy (Lanes.fill zero)] := by
  obtain ⟨hcfg, hphase, hcnt, hsidx, hq1, hq2, htl⟩ := h
  have hat : admitted t.cfg = true := hcfg ▸ ha
  have henergy : energies (takeSample 0#16 t) = Lanes.fill zero :=
    energies_of_clear hat (takeSample_q1_of_silent hat hq1 hq2) hq1
  have hreject : classify (takeSample 0#16 t).cfg (energies (takeSample 0#16 t)) = none := by
    rw [henergy]
    exact classify_fill_zero hat
  refine ⟨_, (exec_sample_atBoundary hat hphase (by rw [hcnt, hcfg, hk])).trans (boundary_of_rejected hreject), ?_⟩
  simp [henergy, htl, hsidx, ← hk, Nat.add_assoc]

end

/-- One more command at the end of a list that completes. -/
theorem execAll_append_singleton {is : List Instr} {s t : State} (h : execAll is s = .next t) (i : Instr) :
    execAll (is ++ [i]) s = exec i t := by
  rw [execAll_append, h]
  show execAll [i] t = exec i t
  rw [execAll]
  cases exec i t <;> rfl

section
variable {s : State} (ha : admitted s.cfg = true) (hr : s.phase = .run) (hcnt : s.cnt = 0)
  (hq1 : s.q1 = Lanes.fill zero) (hq2 : s.q2 = Lanes.fill zero)
include ha hr hcnt hq1 hq2

/-- Silent samples short of a whole sample block, one by one. -/
theorem execAll_silent (k : Nat) (hk : k < s.cfg.n) :
    ∃ t, execAll (List.replicate k (.sample 0#16)) s = .next t ∧ SilentAfter k s t := by
  induction k with
  | zero => exact ⟨s, rfl, rfl, hr, hcnt, rfl, hq1, hq2, rfl⟩
  | succ k ih =>
    obtain ⟨t, ht, hsilent⟩ := ih (Nat.lt_of_succ_lt hk)
    rw [List.replicate_succ', execAll_append_singleton ht]
    exact hsilent.sample ha hk

/-- A whole silent sample block: its last sample is a rejected boundary (40_goertzel_bank R99). -/
theorem execAll_silentBlock :
    ∃ t, execAll (List.replicate s.cfg.n (.sample 0#16)) s = .next t ∧
      t.q1 = Lanes.fill zero ∧ t.q2 = Lanes.fill zero ∧ t.timeline = s.timeline ∧ t.sidx = s.sidx + s.cfg.n ∧
      t.cnt = 0 ∧ t.energy = some (Lanes.fill zero) ∧ t.events = [.energy (Lanes.fill zero)] := by
  obtain ⟨-, hn, -⟩ := admitted_iff.1 ha
  obtain ⟨k, hk⟩ : ∃ k, k + 1 = s.cfg.n := ⟨s.cfg.n - 1, Nat.sub_add_cancel hn⟩
  obtain ⟨t, ht, hsilent⟩ := execAll_silent ha hr hcnt hq1 hq2 k (by omega)
  have hlast : List.replicate s.cfg.n (Instr.sample 0#16) = List.replicate k (.sample 0#16) ++ [.sample 0#16] := by
    rw [← hk, List.replicate_succ']
  rw [hlast, execAll_append_singleton ht]
  exact hsilent.boundary ha hk

end

end Sys2Proof.Machine
end

section
/-! The statements of 40_goertzel_bank. -/

namespace Sys2Proof.Proofs

open Sys2Proof.Machine

/-- Settles O15. -/
theorem sampleInsideBlock : Obligations.SampleInsideBlock := by
  intro s x ha hr hb
  exact ⟨_, exec_sample_insideBlock ha hr hb, by simp [filterOut, hr]⟩

/-- Settles O16: the bank and the energies of the statement are those that the boundary reads. -/
theorem sampleRejectedBoundary : Obligations.SampleRejectedBoundary := by
  intro s x q1' e ha hr hb hq he hc
  obtain rfl : e = energies (takeSample x s) := eq_energies_takeSample (eq_takeSample_q1 hq) he
  refine ⟨_, (exec_sample_atBoundary ha hr hb).trans (boundary_of_rejected hc), ?_⟩
  simp [hr, zero]

/-- Settles O17: as at a rejected boundary, with the one append that the room allows. -/
theorem sampleAcceptedBoundary : Obligations.SampleAcceptedBoundary := by
  intro s x q1' e sym ha hr hb hq he hc hroom
  obtain rfl : e = energies (takeSample x s) := eq_energies_takeSample (eq_takeSample_q1 hq) he
  refine ⟨_, (exec_sample_atBoundary ha hr hb).trans (boundary_of_accepted hc hroom.symm), ?_⟩
  simp [hr, zero]

/-- Settles O22. -/
theorem firstSampleOfBlock : Obligations.FirstSampleOfBlock := by
  intro s x ha hr hb hq1 hq2
  exact ⟨_, exec_sample_insideBlock ha hr hb, takeSample_q1_of_clear ha hq1 hq2 x, hq1⟩

/-- Settles O23: the energy is that of `Q1 = x` and `Q2 = 0.0`, and neither the square nor `c·x` overflows, as `x` is an
int16 and `c` is between -2 and 2. -/
theorem oneSampleBlockEnergy : Obligations.OneSampleBlockEnergy := by
  intro s x ha hr hn hcnt hcap hcoeff hq1 hq2
  obtain ⟨t, h, -⟩ := sampleCompletes s x ha hr hcap
  have hb : s.cnt + 1 = s.cfg.n := by rw [hcnt, hn]
  obtain ⟨-, -, henergy⟩ := (execSample_bank h).2 hb
  refine ⟨t, h, ?_, execSample_cnt_of_boundary h hb⟩
  rw [henergy]
  refine congrArg some (Lanes.ext_get fun i => ?_)
  rw [energies_get, takeSample_q1_of_clear ha hq1 hq2, takeSample_q2, hq1, Lanes.get_fill, Lanes.get_fill,
    Lanes.get_fill]
  obtain ⟨y, hy, hy2⟩ := hcoeff i
  exact laneEnergy_zero_right (isFinite_fromInt16 x)
    (isFinite_fmul_fromInt16 (toRat_fromInt16 x) (abs_sampleInt_le x) x)
    (isFinite_fmul_fromInt16 hy (hy2.trans (by norm_num)) x)

/-- Settles O24: short of the boundary the bank stays clear sample by sample, and the boundary rejects. -/
theorem silentBlockRejected : Obligations.SilentBlockRejected := by
  intro s ha hr hcnt hq1 hq2
  obtain ⟨t, ht, htq1, htq2, httl, htsidx, htcnt, htenergy, htevents⟩ := execAll_silentBlock ha hr hcnt hq1 hq2
  refine ⟨fun k hk => ?_, ⟨t, ht, htcnt, htenergy, htevents⟩, by decide +kernel⟩
  obtain hlt | rfl := Nat.lt_or_eq_of_le hk
  · obtain ⟨u, hu, hsilent⟩ := execAll_silent ha hr hcnt hq1 hq2 k hlt
    exact ⟨u, hu, hsilent.q1, hsilent.q2, hsilent.timeline, hsilent.sidx⟩
  · exact ⟨t, ht, htq1, htq2, httl, htsidx⟩

end Sys2Proof.Proofs
end

section
/-! SUPPORT. The scan of the Classifier is the library's `List.argmax`: the row and the column bin
(41_classifier R111, R112). -/

namespace Sys2Proof.Machine

/-- The scan answers one of the bins it looks at, whatever the energies. -/
theorem argmaxScan_mem (e : Lanes Num64) (start : Bin) (rest : List Bin) :
    argmaxScan e start rest ∈ start :: rest := by
  induction rest using List.reverseRecOn with
  | nil => exact List.mem_singleton_self start
  | append_singleton rest i ih =>
    rw [argmaxScan, List.foldl_concat]
    split
    · simp
    · rw [← List.cons_append]
      exact List.mem_append_left _ ih

theorem rowBin_lt (e : Lanes Num64) : (rowBin e).val < 4 := by
  have hgroup : ∀ i ∈ ([0, 1, 2, 3] : List Bin), i.val < 4 := by decide
  exact hgroup _ (argmaxScan_mem e 0 [1, 2, 3])

theorem le_colBin (e : Lanes Num64) : 4 ≤ (colBin e).val := by
  have hgroup : ∀ i ∈ ([4, 5, 6, 7] : List Bin), 4 ≤ i.val := by decide
  exact hgroup _ (argmaxScan_mem e 4 [5, 6, 7])

section
variable {e : Lanes Num64} (hn : ∀ i, isNaN (e.get i) = false)
include hn

/-- Between energies that are numbers, "greater" is the order of their places. -/
theorem fgt_get_iff (i j : Bin) :
    fgt (e.get i) (e.get j) = true ↔ orderKey (e.get j) < orderKey (e.get i) := by
  simp [fgt, hn]

theorem argmax_eq_argmaxScan (start : Bin) (rest : List Bin) :
    (start :: rest).argmax (fun i => orderKey (e.get i)) = some (argmaxScan e start rest) := by
  induction rest using List.reverseRecOn with
  | nil => rfl
  | append_singleton rest i ih =>
    rw [← List.cons_append, List.argmax_concat, ih, argmaxScan, argmaxScan, List.foldl_concat]
    simp only [fgt_get_iff hn]
    split <;> rfl

/-- On a group of bins in rising order the scan finds the first place of the greatest energy. -/
theorem argmaxScan_first_max {start : Bin} {rest : List Bin}
    (hsorted : ∀ i ∈ start :: rest, ∀ j ∈ start :: rest, i < j →
      (start :: rest).idxOf i < (start :: rest).idxOf j) :
    (∀ i ∈ start :: rest, fgt (e.get i) (e.get (argmaxScan e start rest)) = false) ∧
    (∀ i ∈ start :: rest, i < argmaxScan e start rest →
      fgt (e.get (argmaxScan e start rest)) (e.get i) = true) := by
  obtain ⟨hmem, hmax, hfirst⟩ := List.argmax_eq_some_iff.1 (argmax_eq_argmaxScan hn start rest)
  refine ⟨fun i hi => ?_, fun i hi hlt => ?_⟩
  · rw [← Bool.not_eq_true, fgt_get_iff hn]
    exact (hmax i hi).not_gt
  · rw [fgt_get_iff hn]
    by_contra hle
    have hidx := hfirst i hi (not_lt.1 hle)
    exact hidx.not_gt (hsorted i hi _ hmem hlt)

end

end Sys2Proof.Machine
end

section
/-! SUPPORT. The tests of the Classifier in the source's constants, and everything `classify` can answer. -/

namespace Sys2Proof.Machine

section
variable {c : Config} (h : admitted c = true)
include h

/-- The thresholds of an admitted configuration are the source's literals (10_state R34, log 11). -/
theorem thresholds_of_admitted :
    c.eFloor = lit 4 5 ∧ c.twNormal = lit 398 (-3) ∧ c.twReverse = lit 158 (-3) ∧ c.pkLevel = lit 1 9 ∧
      c.pkHi = lit 158 (-3) ∧ c.pkLo = lit 10 (-3) := by
  obtain ⟨-, -, -, -, -, hconst⟩ := admitted_iff.1 h
  obtain ⟨-, hfloor, hnormal, hreverse, hlevel, hhi, hlo⟩ := of_decide_eq_true hconst
  rw [hfloor, hnormal, hreverse, hlevel, hhi, hlo]
  decide +kernel

theorem floorPass_iff (e : Lanes Num64) :
    floorPass c e = true ↔ fge (e.get (rowBin e)) (lit 4 5) = true ∧ fge (e.get (colBin e)) (lit 4 5) = true := by
  obtain ⟨hfloor, -⟩ := thresholds_of_admitted h
  rw [floorPass, hfloor, Bool.and_eq_true]

theorem twistPass_iff (e : Lanes Num64) :
    twistPass c e = true ↔
      (fgt (e.get (colBin e)) (e.get (rowBin e)) = true →
        flt (e.get (rowBin e)) (fmul (e.get (colBin e)) (lit 398 (-3))) = false) ∧
      (fgt (e.get (colBin e)) (e.get (rowBin e)) = false →
        flt (e.get (colBin e)) (fmul (e.get (rowBin e)) (lit 158 (-3))) = false) := by
  obtain ⟨-, hnormal, hreverse, -⟩ := thresholds_of_admitted h
  rw [twistPass, hnormal, hreverse, normalTwist]
  cases fgt (e.get (colBin e)) (e.get (rowBin e)) <;> simp

theorem peakThreshold_eq (e : Lanes Num64) :
    peakThreshold c e = if fgt (peakEnergy e) (lit 1 9) then fmul (peakEnergy e) (lit 158 (-3))
      else fmul (peakEnergy e) (lit 10 (-3)) := by
  obtain ⟨-, -, -, hlevel, hhi, hlo⟩ := thresholds_of_admitted h
  rw [peakThreshold, hlevel, hhi, hlo]

end

section
variable {c : Config} {e : Lanes Num64}

/-- The Classifier accepts when none of its three tests rejects (41_classifier R122). -/
theorem classify_eq_some {sym : Symbol} :
    classify c e = some sym ↔ floorPass c e = true ∧ twistPass c e = true ∧ peakCount c e ≤ 2 ∧
      sym = gridSymbol c (rowBin e) (colBin e) := by
  unfold classify
  cases floorPass c e <;> cases twistPass c e <;> simp [eq_comm]

theorem classify_of_not_floorPass (h : floorPass c e ≠ true) : classify c e = none := by
  simp [classify, h]

theorem classify_of_not_twistPass (h : twistPass c e ≠ true) : classify c e = none := by
  simp [classify, h]

end

/-- The grid place of a row and a column bin (41_classifier R117). -/
theorem eq_gridSymbol_iff {c : Config} {row col : Bin} {sym : Symbol} (hrow : row.val < 4) (hcol : 4 ≤ col.val) :
    sym = gridSymbol c row col ↔
      ∃ r k : Fin 4, r.val = row.val ∧ k.val + 4 = col.val ∧ sym = gridAt c r k := by
  have hr : (Fin.ofNat 4 row.val).val = row.val := Nat.mod_eq_of_lt hrow
  have hk : (Fin.ofNat 4 (col.val - 4)).val = col.val - 4 := Nat.mod_eq_of_lt (by omega)
  refine ⟨fun h => ⟨_, _, hr, by omega, h⟩, ?_⟩
  rintro ⟨r, k, hrv, hkv, rfl⟩
  have hr' : r = Fin.ofNat 4 row.val := Fin.ext (by omega)
  have hk' : k = Fin.ofNat 4 (col.val - 4) := Fin.ext (by omega)
  rw [hr', hk', gridSymbol]

end Sys2Proof.Machine
end

section
/-! SUPPORT. `+∞` in the tests of the Classifier (41_classifier R121). -/

namespace Sys2Proof.Machine

theorem isNaN_iff {x : Num64} : isNaN x = true ↔ infMag < magField x := by
  have hx := x.isLt
  simp only [isNaN, decide_eq_true_eq, expField_eq, fracField_eq, magField_eq, infMag]
  omega

/-- Nothing is greater than `+∞`. -/
theorem fgt_posInf (a : Num64) : fgt a 0x7ff0000000000000#64 = false := by
  have hinf : orderKey 0x7ff0000000000000#64 = infMag := by decide
  by_cases hn : isNaN a = true
  · exact (comparisons_of_nan (.inl hn)).2.1
  · rw [isNaN_iff, not_lt] at hn
    have hle : orderKey a ≤ infMag := by
      unfold orderKey signed
      split <;> omega
    simp [fgt, hinf, hle]

/-- `+∞` in the row and the column bin passes the three tests: `+∞` is above the floor, it is not less than itself, and
no energy is greater than the threshold `+∞`. -/
theorem classify_posInf {c : Config} {e : Lanes Num64} (h : admitted c = true)
    (hrow : e.get (rowBin e) = 0x7ff0000000000000#64) (hcol : e.get (colBin e) = 0x7ff0000000000000#64) :
    classify c e = some (gridSymbol c (rowBin e) (colBin e)) := by
  have hfloor : floorPass c e = true := by
    rw [floorPass_iff h, hrow, hcol]
    decide +kernel
  have htwist : twistPass c e = true := by
    rw [twistPass_iff h, hrow, hcol]
    decide +kernel
  have hthreshold : peakThreshold c e = 0x7ff0000000000000#64 := by
    rw [peakThreshold_eq h, peakEnergy, hrow, hcol, ite_self]
    decide +kernel
  have hcount : peakCount c e = 0 := by
    simp [peakCount, hthreshold, fgt_posInf]
  exact classify_eq_some.2 ⟨hfloor, htwist, by omega, rfl⟩

end Sys2Proof.Machine
end

section
/-! The statements of 41_classifier. -/

namespace Sys2Proof.Proofs

open Sys2Proof.Machine

/-- Settles O25: both scans are the library's `argmax` over the places of the energies, which takes the first of
equals. -/
theorem argmaxTakesLowestIndex : Obligations.ArgmaxTakesLowestIndex := by
  intro e hn
  obtain ⟨hrow, hrowFirst⟩ := argmaxScan_first_max hn (start := 0) (rest := [1, 2, 3]) (by decide)
  obtain ⟨hcol, hcolFirst⟩ := argmaxScan_first_max hn (start := 4) (rest := [5, 6, 7]) (by decide)
  have hrows : ∀ i : Bin, i.val < 4 → i ∈ ([0, 1, 2, 3] : List Bin) := by decide
  have hcols : ∀ i : Bin, 4 ≤ i.val → i ∈ ([4, 5, 6, 7] : List Bin) := by decide
  exact ⟨⟨rowBin_lt e, fun i hi => hrow i (hrows i hi),
      fun i hlt => hrowFirst i (hrows i (Nat.lt_trans hlt (rowBin_lt e))) hlt⟩,
    ⟨le_colBin e, fun i hi => hcol i (hcols i hi), fun i hi => hcolFirst i (hcols i hi)⟩⟩

/-- Settles O26: the floor is the first test, and no test reads `N`. -/
theorem energyFloorRejects : Obligations.EnergyFloorRejects :=
  ⟨fun _ e hc hbelow => classify_of_not_floorPass (mt (floorPass_iff hc e).1 hbelow), fun _ _ _ => rfl,
    by decide +kernel, by decide +kernel⟩

/-- Settles O27: energies that pass the twist test pass the one of their own branch. -/
theorem twistRejects : Obligations.TwistRejects := by
  intro c e hc
  refine ⟨fun hgt hlt => classify_of_not_twistPass fun hpass => ?_,
    fun hngt hlt => classify_of_not_twistPass fun hpass => ?_⟩
  · obtain ⟨hnormal, -⟩ := (twistPass_iff hc e).1 hpass
    simp [hnormal hgt] at hlt
  · obtain ⟨-, hreverse⟩ := (twistPass_iff hc e).1 hpass
    simp [hreverse hngt] at hlt

/-- Settles O28: `classify_eq_some` with each test in the source's constants. -/
theorem classifierAcceptsExactly : Obligations.ClassifierAcceptsExactly := by
  intro c e sym hc
  dsimp only
  rw [classify_eq_some, floorPass_iff hc, twistPass_iff hc, eq_gridSymbol_iff (rowBin_lt e) (le_colBin e), peakCount,
    peakThreshold_eq hc, peakEnergy, normalTwist]
  simp only [and_assoc]

/-- Settles O29: a NaN fails the floor, it exceeds nothing, and `+∞` passes the three tests. -/
theorem classifierOnNaNAndInfinity : Obligations.ClassifierOnNaNAndInfinity := by
  intro c e hc
  refine ⟨fun hnan => classify_of_not_floorPass fun hpass => ?_, fun i t hnan => (comparisons_of_nan (.inl hnan)).2.1,
    fun hrow hcol => ?_⟩
  · obtain ⟨hrow, hcol⟩ := (floorPass_iff hc e).1 hpass
    obtain hnan | hnan := hnan
    · simp [(comparisons_of_nan (.inl hnan)).2.2] at hrow
    · simp [(comparisons_of_nan (.inl hnan)).2.2] at hcol
  · obtain ⟨r, k, hr, hk, hsym⟩ := (eq_gridSymbol_iff (c := c) (rowBin_lt e) (le_colBin e)).1 rfl
    exact ⟨r, k, hr, hk, (classify_posInf hc hrow hcol).trans (congrArg some hsym)⟩

end Sys2Proof.Proofs
end

section
/-! SUPPORT. The walk of `END` entry by entry and run by run (42_temporal_decoder R132, R133, R135), and the characters of
its string. -/

namespace Sys2Proof.Machine

section
variable {minc : Nat} {r : Collapse} {c : Symbol}

theorem collapseStep_of_differs (ht : r.tracked ≠ some c) : collapseStep minc r c = ⟨some c, 1, none, r.out⟩ :=
  if_neg ht

theorem collapseStep_of_emits (ht : r.tracked = some c) (hlen : minc ≤ r.runlen + 1) (hg : r.guard ≠ some c) :
    collapseStep minc r c = ⟨some c, 0, some c, r.out ++ [c]⟩ := by
  simp [collapseStep, ht, hlen, hg]

theorem collapseStep_of_repeats (ht : r.tracked = some c) (hquiet : ¬ (r.runlen + 1 ≥ minc ∧ r.guard ≠ some c)) :
    collapseStep minc r c = ⟨some c, r.runlen + 1, r.guard, r.out⟩ := by
  rw [collapseStep, if_pos ht, if_neg hquiet, ht]

end

/-- The walk is causal (42_temporal_decoder R135 item 4): it goes on from the collapse of what it has read. -/
theorem collapse_append (minc : Nat) (m m' : Memory) :
    collapse minc (m ++ m') = (m'.map Entry.sym).foldl (collapseStep minc) (collapse minc m) := by
  simp only [collapse_eq_foldl, List.map_append, List.foldl_append]

/-- An entry takes nothing back from `OUT`. -/
theorem out_prefix_collapseStep (minc : Nat) (r : Collapse) (c : Symbol) : r.out <+: (collapseStep minc r c).out := by
  unfold collapseStep
  split
  · split
    · exact List.prefix_append r.out [c]
    · exact List.prefix_rfl
  · exact List.prefix_rfl

theorem out_prefix_foldl_collapseStep (minc : Nat) (cs : List Symbol) (r : Collapse) :
    r.out <+: (cs.foldl (collapseStep minc) r).out := by
  induction cs generalizing r with
  | nil => exact List.prefix_rfl
  | cons c cs ih => exact (out_prefix_collapseStep minc r c).trans (ih (collapseStep minc r c))

/-- What a run puts out: its symbol if it has at least `MINC` entries. -/
def longRunSymbol (minc : Nat) (run : List Symbol) : Option Symbol :=
  if minc ≤ run.length then run.head? else none

theorem eq_replicate_of_run {run : List Symbol} (hne : run ≠ []) (heq : run.IsChain fun a b => a == b) :
    ∃ c n, run = List.replicate (n + 1) c := by
  obtain ⟨c, cs, rfl⟩ := List.exists_cons_of_ne_nil hne
  simp only [beq_iff_eq] at heq
  exact ⟨c, cs.length, congrArg (c :: ·) (List.isChain_cons_eq_iff_eq_replicate.1 heq)⟩

section
variable {minc : Nat} (hminc : 2 ≤ minc)
include hminc

/-- The registers at the end of a run of `n + 1` entries: its `MINC`-th entry puts the symbol out and sets the guard,
the later ones are counted from 0. -/
theorem foldl_collapseStep_run {r : Collapse} {c : Symbol} (ht : r.tracked ≠ some c) (n : Nat) :
    (List.replicate (n + 1) c).foldl (collapseStep minc) r =
      if minc ≤ n + 1 then ⟨some c, n + 1 - minc, some c, r.out ++ [c]⟩ else ⟨some c, n + 1, none, r.out⟩ := by
  induction n with
  | zero => rw [if_neg (by omega)]; exact collapseStep_of_differs ht
  | succ n ih =>
    rw [List.replicate_succ', List.foldl_append, ih, List.foldl_cons, List.foldl_nil]
    obtain hlong | heq | hshort : minc ≤ n + 1 ∨ minc = n + 2 ∨ n + 2 < minc := by omega
    · rw [if_pos hlong, if_pos (by omega), collapseStep_of_repeats rfl (by simp), Nat.succ_sub hlong]
    · rw [if_neg (by omega), if_pos heq.le, collapseStep_of_emits rfl heq.le (by simp), heq, Nat.sub_self]
    · rw [if_neg (by omega), if_neg (by omega), collapseStep_of_repeats rfl (by dsimp only; omega)]

/-- A run leaves its own symbol tracked and adds to `OUT` what it puts out. -/
theorem foldl_collapseStep_run_out {r : Collapse} {c : Symbol} (ht : r.tracked ≠ some c) (n : Nat) :
    ((List.replicate (n + 1) c).foldl (collapseStep minc) r).tracked = some c ∧
    ((List.replicate (n + 1) c).foldl (collapseStep minc) r).out =
      r.out ++ (longRunSymbol minc (List.replicate (n + 1) c)).toList := by
  rw [foldl_collapseStep_run hminc ht, longRunSymbol, List.length_replicate, List.head?_replicate]
  split <;> simp

/-- The walk over maximal runs: non-empty, each of equal symbols, neighbours of different ones. -/
theorem foldl_collapseStep_runs_out {runs : List (List Symbol)} {r : Collapse} (hne : [] ∉ runs)
    (heq : ∀ run ∈ runs, run.IsChain fun a b => a == b)
    (hsep : runs.IsChain fun run next => ∃ h h', (run.getLast h == next.head h') = false)
    (ht : ∀ run ∈ runs.head?, r.tracked ≠ run.head?) :
    (runs.flatten.foldl (collapseStep minc) r).out = r.out ++ runs.filterMap (longRunSymbol minc) := by
  induction runs generalizing r with
  | nil => simp
  | cons run runs ih =>
    obtain ⟨hrun, hruns⟩ := List.forall_mem_cons.1 heq
    obtain ⟨hnext, htail⟩ := List.isChain_cons.1 hsep
    obtain ⟨c, n, rfl⟩ := eq_replicate_of_run (List.ne_of_not_mem_cons hne).symm hrun
    obtain ⟨htracked, hout⟩ := foldl_collapseStep_run_out hminc (ht _ rfl) n
    have hswitch : ∀ next ∈ runs.head?,
        ((List.replicate (n + 1) c).foldl (collapseStep minc) r).tracked ≠ next.head? := by
      intro next hmem
      obtain ⟨_, hcons, hdiffer⟩ := hnext next hmem
      simpa [htracked, List.head?_eq_some_head hcons] using hdiffer
    rw [List.flatten_cons, List.foldl_append, ih (List.not_mem_of_not_mem_cons hne) hruns htail hswitch, hout,
      List.append_assoc, List.filterMap_cons]
    cases longRunSymbol minc (List.replicate (n + 1) c) <;> rfl

end

/-- The two ranges of lowercase hexadecimal digits in ASCII (00_scope R13). -/
theorem char_range (sym : Symbol) :
    (0x30 ≤ (char sym).toNat ∧ (char sym).toNat ≤ 0x39) ∨ (0x61 ≤ (char sym).toNat ∧ (char sym).toNat ≤ 0x66) := by
  revert sym
  decide

/-- What `END` answers where it is in protocol. -/
theorem exec_endStream_of_run {s : State} (ha : admitted s.cfg = true) (hr : s.phase = .run) :
    exec .endStream s = .next (((s.putCollapse (collapse s.cfg.minc s.timeline)).putPhase .done).putEvents
      [.decoded ((collapse s.cfg.minc s.timeline).out.map char)]) := by
  rw [exec_endStream, execEndStream, requireAdmitted_of ha, requireRun_of hr]

end Sys2Proof.Machine
end

section
/-! The statements of 42_temporal_decoder. -/

namespace Sys2Proof.Proofs

open Sys2Proof.Machine

/-- Settles O30: the collapse is the fold over the symbols, and the writes of `END` reach no other field. -/
theorem endResultAndFrame : Obligations.EndResultAndFrame := by
  intro s ha hr
  refine ⟨_, exec_endStream_of_run ha hr, rfl, collapse_eq_foldl s.cfg.minc s.timeline, rfl, ?_⟩
  simp

/-- Settles O31, clause by clause with the lemmas about `collapseStep`. -/
theorem collapseStepRules : Obligations.CollapseStepRules :=
  fun _ _ _ => ⟨collapseStep_of_differs, collapseStep_of_emits, collapseStep_of_repeats⟩

/-- Settles O32, run by run: the runs of `splitBy` are maximal. -/
theorem collapseKeepsLongRuns : Obligations.CollapseKeepsLongRuns := by
  intro minc m hminc
  have hwalk := foldl_collapseStep_runs_out hminc (r := collapseStart) (List.nil_notMem_splitBy _ (m.map Entry.sym))
    (fun _ => List.isChain_of_mem_splitBy) (List.isChain_getLast_head_splitBy _ _) fun run hmem => ?_
  · rwa [List.flatten_splitBy, ← collapse_eq_foldl] at hwalk
  · have hne := List.ne_nil_of_mem_splitBy (List.mem_of_mem_head? hmem)
    exact Ne.symm (mt List.head?_eq_none_iff.1 hne)

/-- Settles O33: each symbol of `OUT` took `MINC` entries. -/
theorem decodedLengthBound : Obligations.DecodedLengthBound :=
  fun minc m hminc => (Nat.le_div_iff_mul_le (Nat.zero_lt_of_lt hminc)).2 (collapse_bound minc m).out_le

/-- Settles O34. -/
theorem collapseOnTheFly : Obligations.CollapseOnTheFly :=
  fun minc m e => collapse_append minc m [e]

/-- Settles O35: the rest of the walk only appends to `OUT`. -/
theorem prefixDecodesToPrefix : Obligations.PrefixDecodesToPrefix := by
  intro minc m m'
  rw [collapse_append]
  exact out_prefix_foldl_collapseStep minc (m'.map Entry.sym) (collapse minc m)

/-- Settles O36: the collapse is a fold over the symbols alone. -/
theorem timestampsAreIgnored : Obligations.TimestampsAreIgnored := by
  intro minc m m' h
  rw [collapse_eq_foldl, collapse_eq_foldl, h]

/-- Settles O37: the string is `OUT`, character by character. -/
theorem decodedIsLowercaseHex : Obligations.DecodedIsLowercaseHex := by
  intro s t h
  obtain ⟨-, -, rfl⟩ := execEndStream_cases h
  refine ⟨_, rfl, List.length_map _, fun b hb => ?_⟩
  obtain ⟨sym, -, rfl⟩ := List.mem_map.1 hb
  exact char_range sym

end Sys2Proof.Proofs
end

section
/-! SUPPORT. What `RESET` answers, what the protocol refuses, and lists of commands: the lemmas that the statements of
43_session_control need. -/

namespace Sys2Proof.Machine

/-- `RESET` completes in every phase (43_session_control R150). -/
theorem exec_reset_of_admitted {s : State} (ha : admitted s.cfg = true) : exec .reset s = .next (sessionReset s) :=
  requireAdmitted_of ha

/-- After a session reset another one finds every field at its value already (10_state R36). -/
@[simp] theorem sessionReset_sessionReset (s : State) : sessionReset (sessionReset s) = sessionReset s := rfl

theorem admitted_sessionReset {s : State} (ha : admitted s.cfg = true) : admitted (sessionReset s).cfg = true := ha

@[simp] theorem sessionReset_phase (s : State) : (sessionReset s).phase = .run := rfl
@[simp] theorem sessionReset_sidx (s : State) : (sessionReset s).sidx = 0 := rfl

/-- `RESET` reads nothing but the configuration and what is presented next (43_session_control R150). -/
theorem exec_reset_congr {s s' : State} (hcfg : s.cfg = s'.cfg) (hinput : s.input = s'.input) :
    exec .reset s = exec .reset s' := by
  have hreset : sessionReset s = sessionReset s' := by rw [sessionReset, sessionReset, hcfg, hinput]
  rw [exec_reset, exec_reset, execReset, execReset, requireAdmitted, requireAdmitted, hcfg, hreset]

/-- Outside `RUN` only `RESET` is in protocol (43_session_control R153). -/
theorem exec_outOfProtocol {i : Instr} {s : State} (ha : admitted s.cfg = true) (hp : s.phase ≠ .run)
    (hi : i ≠ .reset) : exec i s = .refused .outOfProtocol := by
  cases i with
  | sample x => exact (requireAdmitted_of ha).trans (if_neg hp)
  | reset => exact absurd rfl hi
  | endStream => exact (requireAdmitted_of ha).trans (if_neg hp)

/-- In `RUN` a `SAMPLE` completes in `RUN`, or faults at a finite timeline (43_session_control R153). -/
theorem exec_sample_of_run {s : State} (x : BitVec 16) (ha : admitted s.cfg = true) (hr : s.phase = .run) :
    (∃ t, exec (.sample x) s = .next t ∧ t.phase = .run) ∨
    (∃ k, exec (.sample x) s = .fault (.timelineFull k) ∧ s.cfg.tlCap ≠ none) := by
  cases h : exec (.sample x) s with
  | next t =>
    obtain ⟨-, hphase, -⟩ := execSample_frame h
    exact .inl ⟨t, rfl, hphase.trans hr⟩
  | fault f =>
    obtain ⟨rfl, hfull⟩ := execSample_fault h
    exact .inr ⟨_, rfl, hfull ▸ Option.some_ne_none s.tlen⟩
  | refused r =>
    obtain ⟨hn, -⟩ | ⟨-, -, hp, -⟩ := exec_refused h
    · simp [ha] at hn
    · exact absurd hr hp

/-- The first command of a list completes, and the rest runs from where it ended. -/
theorem execAll_cons_of_next {i : Instr} {s t : State} (h : exec i s = .next t) (is : List Instr) :
    execAll (i :: is) s = execAll is t := by
  rw [execAll, h]

/-- With an infinite timeline any list of `SAMPLE` commands completes in `RUN`, each of them counted. -/
theorem execAll_samples (xs : List (BitVec 16)) {s : State} (ha : admitted s.cfg = true) (hr : s.phase = .run)
    (hcap : s.cfg.tlCap = none) :
    ∃ t, execAll (xs.map Instr.sample) s = .next t ∧ t.cfg = s.cfg ∧ t.phase = .run ∧ t.sidx = s.sidx + xs.length := by
  induction xs generalizing s with
  | nil => exact ⟨s, rfl, rfl, hr, rfl⟩
  | cons x xs ih =>
    obtain ⟨u, hu, hur, husidx⟩ := Proofs.sampleCompletes s x ha hr hcap
    have hucfg := exec_cfg hu
    obtain ⟨t, ht, htcfg, htr, htsidx⟩ := ih (hucfg ▸ ha) hur (hucfg ▸ hcap)
    refine ⟨t, (execAll_cons_of_next hu _).trans ht, htcfg.trans hucfg, htr, ?_⟩
    rw [htsidx, husidx, List.length_cons, Nat.add_assoc, Nat.add_comm 1]

end Sys2Proof.Machine

namespace Sys2Proof.Safety

open Sys2Proof.Machine

/-- A list of commands that completes keeps the invariants, as each of its commands does (10_state R35). -/
theorem inv_of_execAll {is : List Instr} {s t : State} (hs : Inv s) (h : execAll is s = .next t) : Inv t := by
  induction is generalizing s with
  | nil =>
    obtain rfl : s = t := by simpa [execAll] using h
    exact hs
  | cons i is ih =>
    cases he : exec i s with
    | next u => exact ih (hs.exec he) ((execAll_cons_of_next he is).symm.trans h)
    | fault f => simp [execAll, he] at h
    | refused r => simp [execAll, he] at h

end Sys2Proof.Safety
end

section
/-! The statements of 43_session_control. -/

namespace Sys2Proof.Proofs

open Sys2Proof.Machine Sys2Proof.Safety

/-- Settles O12: hardware reset and `RESET` are the same `sessionReset`, which stays in `RUN` and is its own reset. -/
theorem hardwareResetActsAsReset : Obligations.HardwareResetActsAsReset := by
  intro s rest ha hi
  have hput : admitted (s.putInput rest).cfg = true := ha
  have hleft := admitted_sessionReset hput
  have hstep : step s = .next (sessionReset (s.putInput rest)) := step_resetPin ha hi
  have hagain : exec .reset (sessionReset (s.putInput rest)) = .next (sessionReset (s.putInput rest)) := by
    rw [exec_reset_of_admitted hleft, sessionReset_sessionReset]
  refine ⟨hstep.trans (exec_reset_of_admitted hput).symm, _, hstep, rfl, rfl, fun x r hx => ?_, hagain⟩
  obtain ⟨t, ht, -⟩ | ⟨k, hk, -⟩ := exec_sample_of_run x hleft (sessionReset_phase _)
  · simp [ht] at hx
  · simp [hk] at hx

/-- Settles O38, cell by cell of the table. -/
theorem protocolTable : Obligations.ProtocolTable := fun s ha =>
  ⟨fun hp => ⟨fun _ => exec_outOfProtocol ha hp (by simp), exec_outOfProtocol ha hp (by simp)⟩,
    fun hr => ⟨fun x => exec_sample_of_run x ha hr, _, exec_endStream_of_run ha hr, rfl⟩,
    ⟨_, exec_reset_of_admitted ha, sessionReset_phase s⟩, fun _ _ => present_of_error s⟩

/-- Settles O39: the samples are counted one by one from the session reset, where the invariants of R35 hold, and these
give `CNT` and bound `TLEN` by `SIDX`. -/
theorem decodeSessionCompletes : Obligations.DecodeSessionCompletes := by
  intro s xs ha hcap
  obtain ⟨t, ht, hcfg, hr, hsidx⟩ := execAll_samples xs (admitted_sessionReset ha) (sessionReset_phase s) hcap
  rw [sessionReset_sidx, Nat.zero_add] at hsidx
  rw [sessionReset_cfg] at hcfg
  have hinv : Inv t := inv_of_execAll (inv_sessionReset ha) ht
  have hcnt := hinv.sidx_mod hr
  have htlen := hinv.tlen_le
  rw [hsidx, hcfg] at hcnt htlen
  have hrun : execAll (.reset :: (xs.map Instr.sample ++ [.endStream])) s = exec .endStream t :=
    (execAll_cons_of_next (exec_reset_of_admitted ha) _).trans (execAll_append_singleton ht _)
  exact ⟨_, hrun.trans (exec_endStream_of_run (hcfg ▸ ha) hr), rfl, hsidx, hcnt.symm, htlen, rfl⟩

/-- Settles O40: the outcomes agree from the `RESET` on. -/
theorem sessionsAreIndependent : Obligations.SessionsAreIndependent := by
  intro s s' is hcfg hinput
  rw [execAll, execAll, exec_reset_congr hcfg hinput]

end Sys2Proof.Proofs
end

section
/-! SUPPORT. Everything a command and a step can answer other than a next state: the lemmas that the statements of
60_exceptions need besides `exec_refused`. -/

namespace Sys2Proof.Machine

/-- A boundary whose energies the Classifier accepts, at a full timeline (60_exceptions R166, 20_memory R52). -/
theorem boundary_of_full {s : State} {sym : Symbol} (hc : classify s.cfg (energies s) = some sym)
    (hfull : some s.tlen = s.cfg.tlCap) : boundary s = .fault (.timelineFull s.sidx) := by
  have happ : Memory.append s.cfg.tlCap s.timeline ⟨sym, s.sidx⟩ = none := Memory.append_eq_none.2 hfull
  simp only [boundary, hc, happ, raiseTimelineFull]

/-- The only command that faults is `SAMPLE` in `RUN`, at a full timeline (60_exceptions R161). -/
theorem exec_fault {i : Instr} {s : State} {f : Fault} (h : exec i s = .fault f) :
    (∃ x, i = .sample x) ∧ s.phase = .run ∧ f = .timelineFull (s.sidx + 1) ∧ some s.tlen = s.cfg.tlCap := by
  cases i with
  | sample x =>
    obtain ⟨-, hrun⟩ := requireAdmitted_fault.1 h
    obtain ⟨hr, -⟩ := requireRun_fault.1 hrun
    exact ⟨⟨x, rfl⟩, hr, execSample_fault h⟩
  | reset =>
    obtain ⟨-, hnext⟩ := requireAdmitted_fault.1 h
    simp at hnext
  | endStream =>
    obtain ⟨-, hrun⟩ := requireAdmitted_fault.1 h
    obtain ⟨-, hnext⟩ := requireRun_fault.1 hrun
    simp at hnext

/-- With an admitted configuration only a step that presents a command word can fail to answer a next state: waiting
and the hardware reset always complete (log 6, 43_session_control R151). -/
theorem step_eq_present_of_ne_next {s : State} (ha : admitted s.cfg = true) (h : ∀ t, step s ≠ .next t) :
    ∃ w rest, s.input = .command w :: rest ∧ step s = present w (s.putInput rest) := by
  match hi : s.input with
  | [] => exact absurd (step_nil ha hi) (h _)
  | .command w :: rest => exact ⟨w, rest, rfl, step_command ha hi⟩
  | .resetPin :: rest => exact absurd (step_resetPin ha hi) (h _)

/-- A presented word faults only as the command it decodes to. -/
theorem present_fault {w : CommandWord} {s : State} {f : Fault} (h : present w s = .fault f) :
    ∃ i, decode w = .ok i ∧ exec i s = .fault f := by
  cases hd : decode w with
  | ok i => exact ⟨i, rfl, present_of_ok s hd ▸ h⟩
  | error e => simp [present_of_error s hd] at h

/-- A presented word is refused by decode, whatever the phase, or as the command it decodes to (60_exceptions R163). -/
theorem present_refused {w : CommandWord} {s : State} {r : Refusal} (h : present w s = .refused r) :
    ((∃ e, decode w = .error e) ∧ r = .reservedCommand) ∨ ∃ i, decode w = .ok i ∧ exec i s = .refused r := by
  cases hd : decode w with
  | ok i => exact .inr ⟨i, rfl, present_of_ok s hd ▸ h⟩
  | error e =>
    rw [present_of_error s hd] at h
    cases h
    exact .inl ⟨⟨e, rfl⟩, rfl⟩

/-- A step faults only as the command that it presents. -/
theorem step_fault {s : State} {f : Fault} (h : step s = .fault f) :
    ∃ w rest i, s.input = .command w :: rest ∧ decode w = .ok i ∧ exec i (s.putInput rest) = .fault f := by
  obtain ⟨ha, -⟩ := requireAdmitted_fault.1 h
  obtain ⟨w, rest, hi, hstep⟩ := step_eq_present_of_ne_next ha (by simp [h])
  obtain ⟨i, hd, he⟩ := present_fault (hstep.symm.trans h)
  exact ⟨w, rest, i, hi, hd, he⟩

end Sys2Proof.Machine
end

section
/-! The statements of 60_exceptions. -/

namespace Sys2Proof.Proofs

open Sys2Proof.Machine

/-- Settles O18: the boundary reads the energies of the statement, and `TlAppend` at a full timeline is the fault. -/
theorem timelineFullFaults : Obligations.TimelineFullFaults := by
  intro s x q1' e sym ha hr hb hq he hc hfull
  obtain rfl : e = energies (takeSample x s) := eq_energies_takeSample (eq_takeSample_q1 hq) he
  exact (exec_sample_atBoundary ha hr hb).trans (boundary_of_full hc hfull.symm)

/-- Settles O14, in the order of the checks: admission, then decode, then the command's own fault or refusal. -/
theorem nonOkOutcomesComplete : Obligations.NonOkOutcomesComplete := by
  refine ⟨fun s f h => ?_, fun s r h => ?_⟩
  · obtain ⟨w, rest, i, hi, hd, he⟩ := step_fault h
    obtain ⟨⟨x, rfl⟩, hr, hf, hfull⟩ := exec_fault he
    exact ⟨hf, hfull, hr, w, x, rest, hi, hd⟩
  · obtain hbad | ⟨ha, -⟩ := requireAdmitted_refused.1 h
    · exact .inl hbad
    · obtain ⟨w, rest, hi, hstep⟩ := step_eq_present_of_ne_next ha (by simp [h])
      refine .inr ⟨ha, w, rest, hi, ?_⟩
      obtain hres | ⟨i, hd, he⟩ := present_refused (hstep.symm.trans h)
      · exact .inl hres
      · obtain ⟨hn, -⟩ | ⟨-, hne, hp, hr⟩ := exec_refused he
        · exact absurd ha (by simpa using hn)
        · exact .inr ⟨⟨i, hd, hne⟩, hp, hr⟩

end Sys2Proof.Proofs
end
